-- ==== Sys2Proof/Word.lean ====
section
/-! DEFINITION. The words and values of GFPE: bus words and command words are bit vectors (spec/00_scope.md R8), polynomials
are exact naturals (R7), register and slot numbers are bounded indexes (R6: NREG = 8, NRES = 16). -/

namespace Sys2Proof

/-- A 32-bit bus word or command word; bit 31 is its most significant bit (R8, R120). -/
abbrev Word := BitVec 32

/-- One byte lane of a bus word (R75). -/
abbrev Byte := BitVec 8

/-- A polynomial over GF(2): a non-negative integer whose bit `i` is the coefficient of `x^i` (R7). -/
abbrev Poly := Nat

/-- The number of a polynomial register, 0 to 7 (R31, R122). -/
abbrev RegIdx := Fin 8

/-- The number of a result slot, 0 to 15 (R37). -/
abbrev SlotIdx := Fin 16

end Sys2Proof
end

