-- ==== Sys2Proof/Config.lean ====
section
/-! DEFINITION. The implementation parameters of one GFPE instance (spec/00_scope.md R6): what is fixed for the machine and
never changes as it runs. NREG = 8 and NRES = 16 are fixed by the spec and stand in the types `RegIdx` and `SlotIdx`;
LATENCY has no value at all (R299): it is the schedule `State.turns` that says when the engine steps. -/

namespace Sys2Proof

/-- The parameters R6 lets an implementation or a platform choose. The state carries them as plain data, so that a
statement about every state is a statement about every instance (log entry 1). -/
structure Config where
  /-- `POLY_W`: the width in bits of each polynomial register and result slot. -/
  polyW : Nat
  /-- `BASE`: the bus address of the register window (R71). -/
  base : Nat
  /-- `IRQ_LINE`: the platform's interrupt input that `irq` drives (R262). -/
  irqLine : Nat
deriving DecidableEq, Repr

namespace Config

/-- `LIMBS`: the number of 32-bit limbs of a register, `POLY_W / 32` (R6). -/
def limbs (c : Config) : Nat := c.polyW / 32

/-- What R6 and R71 require of the parameters: `POLY_W` is a multiple of 32 from 8224 to 2097120, and `BASE` is
4096-byte aligned. -/
abbrev WellFormed (c : Config) : Prop :=
  c.polyW % 32 = 0 ∧ 8224 ≤ c.polyW ∧ c.polyW ≤ 2097120 ∧ c.base % 4096 = 0

/-- The instance that `State.reset` starts: `POLY_W` at the default R6 states. DESIGN CHOICE (log entry 1): the spec
leaves BASE and IRQ_LINE open, and this instance puts both at 0; `State.resetOf` takes any other choice. -/
def standard : Config := { polyW := 16448, base := 0, irqLine := 0 }

end Config

end Sys2Proof
end

