-- ==== Sys2Proof/Machine/State.lean ====
section
/-! DEFINITION. The state of one GFPE instance (spec/10_state.md R30), with its parameters, the environment's turns still to
come and the port's last answer beside it; the two ways a step could stop; the state right after reset (R53). -/

namespace Sys2Proof.Machine

/-! ### The environment: what the outside world can do to the block (R14, R290) -/

/-- What a host transaction does: a read, or a write of a value (R70). -/
inductive Access where
  | read
  | write (v : Nat)
deriving DecidableEq, Repr

/-- One host bus transaction, `MemRead(addr, size)` or `MemWrite(addr, size, v)`; `size` counts bytes (R70, R73). -/
structure Transaction where
  addr : Nat
  size : Nat
  access : Access
deriving DecidableEq, Repr

/-- One turn of the interleaving: which agent moves next (R14, R36, R290). -/
inductive Turn where
  /-- The host's transaction arrives at the port (R89). -/
  | host (t : Transaction)
  /-- The engine takes its step, if it has one (R36). -/
  | engine
  /-- The platform asserts the hardware reset input (R290). -/
  | reset
deriving DecidableEq, Repr

/-- The port's answer to a transaction (R73, R74). -/
inductive Response where
  /-- OKAY to a read, with its data. -/
  | okayRead (data : Word)
  /-- OKAY to a write. -/
  | okayWrite
  /-- A bus ERROR: no data. -/
  | error
deriving DecidableEq, Repr

/-! ### The state record -/

/-- The whole state of one GFPE instance (R30), and three fields of the model's own: `cfg`, `turns` and `reply` (log
entries 1, 2 and 3). -/
structure State where
  /-- The instance's parameters (R6); no step changes them. -/
  cfg : Config
  /-- `x[0..7]`, the polynomial registers (R31). -/
  x : Vector Poly 8
  /-- `RES[0..15]`, the result slots (R37). -/
  res : Vector Poly 16
  /-- `RESVALID` (R38). -/
  resValid : BitVec 16
  /-- `CTRL.DONE_IE` (R44). -/
  doneIE : Bool
  /-- `CTRL.ERR_IE` (R44). -/
  errIE : Bool
  /-- `STATUS.BUSY` (R45). -/
  busy : Bool
  /-- `STATUS.DONE` (R45). -/
  done : Bool
  /-- `STATUS.ERR` (R45). -/
  err : Bool
  /-- `STATUS.ERR_OVF` (R45). -/
  errOvf : Bool
  /-- `STATUS.ERRCODE` (R45, R251). -/
  errCode : BitVec 8
  /-- `ERRINFO` (R47). -/
  errInfo : Word
  /-- `CMDL`, the latched command word (R34). -/
  cmdl : Word
  /-- `LASTCMD` (R35). -/
  lastCmd : Word
  /-- `DSEL.TARGET` (R48). -/
  dselTarget : BitVec 8
  /-- `DSEL.LIMB` (R48). -/
  dselLimb : BitVec 16
  /-- `DSEL.AINC` (R48). -/
  dselAinc : Bool
  /-- The turns of the interleaving still to come, next first (R14, R89); once none is left, a pending command's engine
  step is next (R299). -/
  turns : List Turn
  /-- The port's answer to the last transaction that reached it. -/
  reply : Option Response
deriving DecidableEq, Repr

/-! ### How a step can stop -/

/-- The faults of the machine. -/
inductive Fault where
  /-- Raised by a host turn whose transaction lies in the window and is not an aligned 32-bit one: the bus ERROR of R73,
  which R74 asks a model to show as a fault of the host's step. Safe: GFPE itself goes on unchanged. -/
  | busError (t : Transaction)
deriving DecidableEq, Repr

/-- The refusals of the machine. -/
inductive Refusal where
  /-- Raised by no arm of `exec` in this model: every command has its meaning. Safe. -/
  | notModelled (mnemonic : String)
deriving DecidableEq, Repr

/-! ### Reset (R53, R291) -/

/-- The state of an instance with parameters `c` right after reset: every element of R53 at the value R53 states. -/
def State.resetOf (c : Config) : State where
  cfg := c
  x := Vector.replicate 8 0
  res := Vector.replicate 16 0
  resValid := 0#16
  doneIE := false
  errIE := false
  busy := false
  done := false
  err := false
  errOvf := false
  errCode := 0#8
  errInfo := 0#32
  cmdl := 0#32
  lastCmd := 0#32
  dselTarget := 0#8
  dselLimb := 0#16
  dselAinc := false
  turns := []
  reply := none

/-- The standard instance right after reset, with no turn pending. -/
def State.reset : State := State.resetOf Config.standard

end Sys2Proof.Machine
end

