-- ==== Sys2Proof/Machine/Ops.lean ====
section
/-! DEFINITION. The named operations over the registers, the result table and the control state that commands and bus
transactions share: reading and writing a register (spec/10_state.md R31), recording an error and completing a command
(spec/60_exceptions.md R256, R257), raising a command error, accepting a command (spec/20_memory.md R84), resetting the
block (spec/70_reset_and_hazards.md R291). -/

namespace Sys2Proof.Machine

/-! ### Polynomial registers and the result table -/

/-- `x[i]`. No register is hardwired (R31). -/
def State.readReg (s : State) (i : RegIdx) : Poly := s.x[i]

/-- `x[i] <- v`. Every rule that could produce a value wider than a register checks first (R11, R32). -/
def State.writeReg (s : State) (i : RegIdx) (v : Poly) : State := { s with x := s.x.set i v }

/-- `RES[j]`. -/
def State.readSlot (s : State) (j : SlotIdx) : Poly := s.res[j]

/-- All sixteen slots and `RESVALID` at once: DERIVE writes every slot or clears every slot (R38, R219). -/
def State.writeTable (s : State) (t : Vector Poly 16) (valid : BitVec 16) : State := { s with res := t, resValid := valid }

/-! ### Errors (R251, R256, R257) -/

/-- The error codes of R251. -/
inductive ErrCode where
  /-- Illegal command word (R252). -/
  | illegal
  /-- Invalid divisor: a zero divisor or modulus (R253). -/
  | zdiv
  /-- Result wider than `POLY_W` (R254). -/
  | width
  /-- GFOLDR with `N = 0` (R255). -/
  | operand
  /-- GATED offset accessed while `BUSY = 1` (R258). -/
  | busy
  /-- DATA access with an invalid selection, or a DATA write to a result slot (R259). -/
  | access
deriving DecidableEq, Repr

/-- The code of an error in `STATUS.ERRCODE` (R251). -/
def ErrCode.bits : ErrCode → BitVec 8
  | .illegal => 0x01#8
  | .zdiv => 0x02#8
  | .width => 0x03#8
  | .operand => 0x04#8
  | .busy => 0x05#8
  | .access => 0x06#8

/-- `record_error` (R256): the first error since `ERR` was last cleared keeps `ERRCODE` and `ERRINFO`; a later one sets
`ERR_OVF`. -/
def recordError (code : ErrCode) (info : Word) (s : State) : State :=
  if s.err = false then { s with err := true, errCode := code.bits, errInfo := info }
  else { s with errOvf := true }

/-- The `ERRINFO` of an access error, `(write << 31) | off` (R47, R256). -/
def accessInfo (off : BitVec 12) (write : Bool) : Word :=
  ((BitVec.ofBool write).setWidth 32 <<< 31) ||| off.setWidth 32

/-- `access_error` (R256). -/
def accessError (code : ErrCode) (off : BitVec 12) (write : Bool) (s : State) : State :=
  recordError code (accessInfo off write) s

/-- `complete` (R257): every engine step ends with it, whether the command succeeded or failed. -/
def complete (s : State) : State := { s with busy := false, done := true }

/-- A command that ends with all its writes done: it completes. -/
def finish (s : State) : Host.Outcome State Fault Refusal := .next (complete s)

/-- TAKING AN EXCEPTION: `raise E(CMDL)` (R11, R256). The error is recorded with the failing command word and the command
completes; no register is written, control goes nowhere (R250, R264). Its acknowledgement, the nearest thing to a return
from it, is `statusWrite` (R265). -/
def raise (code : ErrCode) (s : State) : Host.Outcome State Fault Refusal :=
  .next (complete (recordError code s.cmdl s))

/-! ### The environment's side of the state -/

/-- The turns still to come. -/
def State.withTurns (s : State) (ts : List Turn) : State := { s with turns := ts }

/-- The port's answer to a transaction (R73, R74). -/
def State.answer (s : State) (r : Response) : State := { s with reply := some r }

/-! ### Accepting a command and resetting the block -/

/-- `cmd_write` (R84), for a state whose `BUSY` is 0: any word is accepted, and accepting it clears `DONE`. -/
def acceptCommand (w : Word) (s : State) : State := { s with cmdl := w, lastCmd := w, done := false, busy := true }

/-- `block_reset` (R290, R291): every element of R53 goes to its reset value. The parameters, the environment's turns and
the port's last answer are no elements of the block and stay. -/
def blockReset (s : State) : State := { State.resetOf s.cfg with turns := s.turns, reply := s.reply }

end Sys2Proof.Machine
end

