-- ==== Sys2Proof/Machine/Flags.lean ====
section
/-! DEFINITION. The flags and the control and status registers as words: what a read of each returns and what a write of
each does (spec/10_state.md R39 to R50, spec/20_memory.md R78, R79, R85, R86), and the interrupt output
(spec/60_exceptions.md R262). -/

namespace Sys2Proof.Machine

/-- A one-bit field at bit `n` of a register word. -/
def bitAt (b : Bool) (n : Nat) : Word := (BitVec.ofBool b).setWidth 32 <<< n

/-- `ID`: the ASCII bytes "GF2P" (R42). -/
def idWord : Word := 0x47463250#32

/-- `CFG`: `LIMBS`, `NREG = 8`, `NRES = 16` (R43). -/
def cfgWord (c : Config) : Word := (16#32 <<< 24) ||| (8#32 <<< 16) ||| (BitVec.ofNat 16 c.limbs).setWidth 32

/-- A read of `CTRL`: `SRST` and the reserved bits read 0 (R44, R78). -/
def ctrlWord (s : State) : Word := bitAt s.errIE 1 ||| bitAt s.doneIE 0

/-- A read of `STATUS` (R45, R78): BUSY[0] DONE[1] ERR[2] ERR_OVF[3] ERRCODE[15:8], reserved bits 0. -/
def statusWord (s : State) : Word :=
  (s.errCode.setWidth 32 <<< 8) ||| bitAt s.errOvf 3 ||| bitAt s.err 2 ||| bitAt s.done 1 ||| bitAt s.busy 0

/-- A read of `DSEL` (R48, R78). -/
def dselWord (s : State) : Word :=
  bitAt s.dselAinc 31 ||| (s.dselLimb.setWidth 32 <<< 8) ||| s.dselTarget.setWidth 32

/-- A write to `STATUS` (R85): writing 1 clears; `BUSY`, `ERRCODE` and the reserved bits ignore writes. Writing 1 to `ERR`
also clears `ERRCODE` and `ERRINFO`, which is how a host acknowledges an error (R265). -/
def statusWrite (d : Word) (s : State) : State :=
  { s with
    done := if d.getLsbD 1 then false else s.done
    err := if d.getLsbD 2 then false else s.err
    errCode := if d.getLsbD 2 then 0#8 else s.errCode
    errInfo := if d.getLsbD 2 then 0#32 else s.errInfo
    errOvf := if d.getLsbD 3 then false else s.errOvf }

/-- A write to `CTRL` (R86): `SRST` resets the block and the enables are then ignored. -/
def ctrlWrite (d : Word) (s : State) : State :=
  if d.getLsbD 31 then blockReset s
  else { s with doneIE := d.getLsbD 0, errIE := d.getLsbD 1 }

/-- A write to `DSEL` (R79): every value of the fields is stored, the reserved bits are not (R48). -/
def dselWrite (d : Word) (s : State) : State :=
  { s with dselTarget := d.extractLsb' 0 8, dselLimb := d.extractLsb' 8 16, dselAinc := d.getLsbD 31 }

/-- `irq` (R262): a level, active high, at every moment a function of the state. `ERR_OVF` does not drive it (R263). -/
def State.irq (s : State) : Bool := (s.done && s.doneIE) || (s.err && s.errIE)

/-- What GFPE drives on the platform's interrupt input `n`: `irq`, on `IRQ_LINE` (R262). -/
def State.irqOn (s : State) (n : Nat) : Bool := decide (n = s.cfg.irqLine) && s.irq

end Sys2Proof.Machine
end

