-- ==== Sys2Proof/Machine/Gf2.lean ====
section
/-! DEFINITION. The pure functions of the GF(2) library and of the derivation pipeline (spec/40_gf2_arith.md R150 to R154,
spec/42_derive.md R212 to R220), on exact naturals. -/

namespace Sys2Proof.Machine

/-! ### Size of a value (spec/00_scope.md R10) -/

/-- `deg(v)`, the index of the highest set bit. The spec leaves `deg(0)` undefined; every rule, and every use here, guards
it by a test that the value is not 0. -/
def deg (v : Poly) : Nat := Nat.log2 v

/-- `bitlen(v)`: `deg(v) + 1`, and 0 for 0. -/
def bitlen (v : Poly) : Nat := if v = 0 then 0 else deg v + 1

/-! ### The library (R150 to R154) -/

/-- `mask(a, w) = a & (2^w - 1)` (R150). -/
def mask (a : Poly) (w : Nat) : Poly := a &&& (2 ^ w - 1)

/-- The loop of R151 over the bits `0 .. n-1` of the masked value `m`: bit `i` goes to bit `w - 1 - i`. -/
def brevBits (m w : Nat) : Nat → Poly
  | 0 => 0
  | n + 1 => if m.testBit n then brevBits m w n ||| (1 <<< (w - 1 - n)) else brevBits m w n

/-- `brev(a, w)`: the low `w` bits of `a` in reversed order (R151). -/
def brev (a : Poly) (w : Nat) : Poly := brevBits (mask a w) w w

/-- The accumulation of R152 over the bits `0 .. n-1` of `a`. -/
def clmulBits (a b : Poly) : Nat → Poly
  | 0 => 0
  | n + 1 => if a.testBit n then clmulBits a b n ^^^ (b <<< n) else clmulBits a b n

/-- `clmul(a, b)`: for every set bit `i` of `a`, XOR `b << i` into the accumulator (R152). -/
def clmul (a b : Poly) : Poly := clmulBits a b (bitlen a)

/-- The two values the division loop carries: the quotient so far and the current remainder (R153). -/
structure DivState where
  quot : Poly
  rem : Poly
deriving DecidableEq, Repr

/-- One pass of the loop of R153: while the remainder is not 0 and its degree is not below the divisor's, align the
divisor's leading bit with the remainder's, XOR it out and add `x^s` to the quotient; otherwise the loop has ended. -/
def divPass (b : Poly) (d : DivState) : DivState :=
  if d.rem ≠ 0 ∧ deg b ≤ deg d.rem then
    { quot := d.quot ^^^ (1 <<< (deg d.rem - deg b)), rem := d.rem ^^^ (b <<< (deg d.rem - deg b)) }
  else d

/-- The loop's values after `n` passes, from `q = 0` and `r = a`. -/
def divPasses (a b : Poly) : Nat → DivState
  | 0 => { quot := 0, rem := a }
  | n + 1 => divPass b (divPasses a b n)

/-- `pdivmod(a, b)` for `b ≠ 0` (R153): each pass clears the remainder's top bit and sets no higher one, so `bitlen(a)`
passes reach the loop's end. -/
def pdivmod (a b : Poly) : DivState := divPasses a b (bitlen a)

/-- `pdiv(a, b)`, the quotient; the precondition is `b ≠ 0` (R154). -/
def pdiv (a b : Poly) : Poly := (pdivmod a b).quot

/-- `prem(a, b)`, the remainder; the precondition is `b ≠ 0` (R154). -/
def prem (a b : Poly) : Poly := (pdivmod a b).rem

/-! ### The formulas of the derivation (R212 to R218) -/

/-- `brev(P >> 1, 32)` (R212). -/
def reflectedGenerator (p : Poly) : Poly := brev (p >>> 1) 32

/-- `pdiv(1 << 64, P)` (R213). -/
def barrett (p : Poly) : Poly := pdiv (1 <<< 64) p

/-- `brev(pdiv(1 << 64, P) >> 1, 32)` (R214). -/
def barrettReflected (p : Poly) : Poly := brev (barrett p >>> 1) 32

/-- `prem(1 << E, P)` (R216). -/
def powerRemainder (e : Nat) (p : Poly) : Poly := prem (1 <<< e) p

/-- `brev(prem(1 << (N - 1), P), 32)` for `N ≥ 1` (R215). -/
def foldConstant (n : Nat) (p : Poly) : Poly := brev (powerRemainder (n - 1) p) 32

/-- `FOLD_N`, the fixed fold widths in their order (R217). -/
def foldN : Vector Nat 11 := #v[64, 96, 128, 144, 160, 2048, 2080, 4096, 4128, 8192, 8224]

/-- The sixteen values DERIVE writes for a generator `P`, in slot order: `RES[5 + i]` is the fold constant of `FOLD_N[i]`
(R218, R219). -/
def deriveTable (p : Poly) : Vector Poly 16 :=
  #v[p, reflectedGenerator p, barrett p, barrettReflected p, powerRemainder 64 p,
    foldConstant foldN[0] p, foldConstant foldN[1] p, foldConstant foldN[2] p, foldConstant foldN[3] p,
    foldConstant foldN[4] p, foldConstant foldN[5] p, foldConstant foldN[6] p, foldConstant foldN[7] p,
    foldConstant foldN[8] p, foldConstant foldN[9] p, foldConstant foldN[10] p]

/-! ### The views of a result (R220) -/

/-- `view_m32(v) = mask(v, 32)`, as the bus word it is read as. -/
def viewMasked (v : Poly) : Word := BitVec.ofNat 32 (mask v 32)

/-- `view_r32(v) = brev(v, 32)`, as the bus word it is read as. -/
def viewReversed (v : Poly) : Word := BitVec.ofNat 32 (brev v 32)

end Sys2Proof.Machine
end

