-- ==== Sys2Proof/Machine/Operands.lean ====
section
/-! DEFINITION. The operand forms: how a command delivers its result and checks its operands (spec/60_exceptions.md R253 to
R255, R260), and how the DATA window selects, reads and replaces a 32-bit limb (spec/20_memory.md R76, R80 to R82). -/

namespace Sys2Proof.Machine

/-! ### Command operands -/

/-- A result that provably fits: it goes to `x[rd]` and the command completes. Operands were read before, so `rd` may name
a source (R12). -/
def writeResult (rd : RegIdx) (v : Poly) (s : State) : Host.Outcome State Fault Refusal := finish (s.writeReg rd v)

/-- An exact result that may be too wide: `E_WIDTH` and no write when it needs more than `POLY_W` bits, never a truncation
(R32, R254). -/
def writeChecked (rd : RegIdx) (v : Poly) (s : State) : Host.Outcome State Fault Refusal :=
  if s.cfg.polyW < bitlen v then raise .width s else writeResult rd v s

/-- The divisor check: `E_ZDIV` when the divisor or generator is 0, whatever the dividend (R253). -/
def withDivisor (d : Poly) (s : State) (k : Host.Outcome State Fault Refusal) : Host.Outcome State Fault Refusal :=
  if d = 0 then raise .zdiv s else k

/-- The operand check of GFOLDR: `E_OPERAND` when `N = 0` (R255). -/
def withFoldWidth (n : Nat) (s : State) (k : Host.Outcome State Fault Refusal) : Host.Outcome State Fault Refusal :=
  if n = 0 then raise .operand s else k

/-! ### The DATA window's operand -/

/-- What `DSEL.TARGET` selects. -/
inductive WindowTarget where
  | reg (i : RegIdx)
  | slot (j : SlotIdx)
deriving DecidableEq, Repr

/-- `0x00` to `0x07` select `x[TARGET]`, `0x10` to `0x1F` select `RES[TARGET - 0x10]`, any other value nothing (R48). -/
def windowTarget (t : BitVec 8) : Option WindowTarget :=
  if h : t.toNat < 8 then some (.reg ⟨t.toNat, h⟩)
  else if h : 16 ≤ t.toNat ∧ t.toNat < 32 then some (.slot ⟨t.toNat - 16, by omega⟩)
  else none

/-- Limb `k` of a value: bits `[32k+31:32k]`, limb 0 the least significant (R76). -/
def limb (v : Poly) (k : Nat) : Word := BitVec.ofNat 32 (v >>> (32 * k))

/-- `v & ~m` on naturals. -/
def andNot (v m : Poly) : Poly := v ^^^ (v &&& m)

/-- `(v & ~((2^32 - 1) << 32k)) | (d << 32k)`: limb `k` replaced, the other limbs kept (R81). -/
def setLimb (v : Poly) (k : Nat) (d : Word) : Poly :=
  andNot v ((2 ^ 32 - 1) <<< (32 * k)) ||| (d.toNat <<< (32 * k))

/-- After a DATA access that passed its check: with `AINC = 1`, `LIMB` becomes `(k + 1) mod 2^16` (R82). -/
def bumpLimb (s : State) : State :=
  { s with dselLimb := if s.dselAinc then s.dselLimb + 1#16 else s.dselLimb }

/-- What a DATA access selects, when `LIMB` is below `LIMBS` and `TARGET` names something (`valid_sel`, R80). -/
def selected (s : State) : Option WindowTarget :=
  if s.dselLimb.toNat < s.cfg.limbs then windowTarget s.dselTarget else none

/-- `data_read` (R80). -/
def dataRead (s : State) : State × Word :=
  match selected s with
  | some (.reg i) => (bumpLimb s, limb (s.readReg i) s.dselLimb.toNat)
  | some (.slot j) => (bumpLimb s, limb (s.readSlot j) s.dselLimb.toNat)
  | none => (accessError .access 0x01C#12 false s, 0#32)

/-- `data_write` (R81): only polynomial registers can be written through the window. -/
def dataWrite (d : Word) (s : State) : State :=
  match selected s with
  | some (.reg i) => bumpLimb (s.writeReg i (setLimb (s.readReg i) s.dselLimb.toNat d))
  | some (.slot _) => accessError .access 0x01C#12 true s
  | none => accessError .access 0x01C#12 true s

end Sys2Proof.Machine
end

