-- ==== Sys2Proof/Machine/Bus.lean ====
section
/-! DEFINITION. The host interface (spec/20_memory.md): the register window and its address map (R70 to R72), the size and
alignment rule (R73), byte lanes (R75), the BUSY gate (R92), the read and write steps (R78, R79). -/

namespace Sys2Proof.Machine

/-! ### Addresses and byte lanes -/

/-- The window is the 4096 bytes from `BASE` (R70, R71). -/
abbrev inWindow (c : Config) (addr : Nat) : Prop := c.base ≤ addr ∧ addr < c.base + 4096

/-- GFPE decodes address bits 11 to 0 and ignores the rest (R71). -/
def offsetOf (addr : Nat) : BitVec 12 := BitVec.ofNat 12 addr

/-- The only transactions the window answers with OKAY: 32 bits wide and word aligned (R73). -/
abbrev alignedWord (t : Transaction) : Prop := t.size = 4 ∧ (offsetOf t.addr).toNat % 4 = 0

/-- The byte a bus word carries on lane `k`: lane 0, the lowest byte address, carries bits 7 to 0 (R75). -/
def byteLane (w : Word) (k : Fin 4) : Byte := w.extractLsb' (8 * k.val) 8

/-- The bus word whose lanes 0 to 3 carry the given bytes (R75). -/
def wordOfLanes (b0 b1 b2 b3 : Byte) : Word := b3 ++ b2 ++ b1 ++ b0

/-- `GATED`: `CMD`, `DSEL`, `DATA`, `RESVALID` and the RESVIEW block (R92). -/
def gated (off : BitVec 12) : Bool :=
  off == 0x010#12 || off == 0x018#12 || off == 0x01C#12 || off == 0x020#12
    || (decide (0x100 ≤ off.toNat) && decide (off.toNat < 0x180))

/-! ### The read and write steps -/

/-- The RESVIEW word at `off`, `0x100 + 8*j` the masked and `0x104 + 8*j` the reversed view of `RES[j]` (R83). -/
def viewRead (off : BitVec 12) (s : State) : Word :=
  if off.getLsbD 2 then viewReversed (s.readSlot (off.extractLsb' 3 4).toFin)
  else viewMasked (s.readSlot (off.extractLsb' 3 4).toFin)

/-- `bus_read(off)` (R78), for an aligned word: the state after it and the data returned. -/
def busRead (off : BitVec 12) (s : State) : State × Word :=
  if s.busy = true ∧ gated off = true then (accessError .busy off false s, 0#32)
  else
    match off.toNat with
    | 0x000 => (s, idWord)
    | 0x004 => (s, cfgWord s.cfg)
    | 0x008 => (s, ctrlWord s)
    | 0x00C => (s, statusWord s)
    | 0x010 => (s, s.lastCmd)
    | 0x014 => (s, s.errInfo)
    | 0x018 => (s, dselWord s)
    | 0x01C => dataRead s
    | 0x020 => (s, s.resValid.setWidth 32)
    | n => (s, if 0x100 ≤ n ∧ n < 0x180 then viewRead off s else 0#32)

/-- `bus_write(off, d)` (R79), for an aligned word: read-only registers and reserved offsets ignore it. -/
def busWrite (off : BitVec 12) (d : Word) (s : State) : State :=
  if s.busy = true ∧ gated off = true then accessError .busy off true s
  else
    match off.toNat with
    | 0x008 => ctrlWrite d s
    | 0x00C => statusWrite d s
    | 0x010 => acceptCommand d s
    | 0x018 => dselWrite d s
    | 0x01C => dataWrite d s
    | _ => s

/-- What the port does with a transaction in the window: the size and alignment refusal comes first and changes nothing
(R73, R260). -/
def portAccess (t : Transaction) (s : State) : State × Response :=
  if alignedWord t then
    match t.access with
    | .read => ((busRead (offsetOf t.addr) s).1, .okayRead (busRead (offsetOf t.addr) s).2)
    | .write v => (busWrite (offsetOf t.addr) (BitVec.ofNat 32 v) s, .okayWrite)
  else (s, .error)

/-- The host's turn. An address outside the window does not reach GFPE (R70); a bus ERROR is a fault of the host's step
(R74); any other transaction leaves its answer in `reply`. -/
def hostTurn (t : Transaction) (s : State) : Host.Outcome State Fault Refusal :=
  if inWindow s.cfg t.addr then
    match portAccess t s with
    | (_, .error) => .fault (.busError t)
    | (s', r) => .next (s'.answer r)
  else .next s

/-! ### Host-program notation (spec/30_encoding.md R131) -/

/-- `wr OFF, VAL`: one aligned 32-bit write. -/
def wr (c : Config) (off : Nat) (d : Word) : Turn := .host ⟨c.base + off, 4, .write d.toNat⟩

/-- `rd OFF`: one aligned 32-bit read. -/
def rd (c : Config) (off : Nat) : Turn := .host ⟨c.base + off, 4, .read⟩

/-- `cmd w` with `n` polls that come before the engine's step and the one that reads `BUSY = 0` after it. -/
def cmd (c : Config) (w : Word) (n : Nat) : List Turn :=
  wr c 0x010 w :: List.replicate n (rd c 0x00C) ++ [.engine, rd c 0x00C]

end Sys2Proof.Machine
end

