-- ==== Sys2Proof/Syntax.lean ====
section
/-! DEFINITION. The commands of GFPE: one constructor per row of spec/opcode_table.json (spec/30_encoding.md R124), with
the assembler operands of its form in the form's order (R123): destination, sources, immediate. -/

namespace Sys2Proof

/-- A GFPE command with its operands. A register operand is one of `p0` to `p7`; an immediate is a natural number, which
a command word can hold only up to 65535 (`Instr.wf`, R122 and R129). -/
inductive Instr where
  /-- R180: do nothing. -/
  | nop
  /-- R181: load a 16-bit immediate. -/
  | pli (rd : RegIdx) (imm : Nat)
  /-- R182: copy a register. -/
  | pmov (rd rs1 : RegIdx)
  /-- R183: GF(2) addition. -/
  | pxor (rd rs1 rs2 : RegIdx)
  /-- R184: multiply by `x^s`. -/
  | pshl (rd rs1 : RegIdx) (imm : Nat)
  /-- R185: divide by `x^s`, dropping the low terms. -/
  | pshr (rd rs1 : RegIdx) (imm : Nat)
  /-- R156: keep the low `w` bits. -/
  | pmask (rd rs1 : RegIdx) (imm : Nat)
  /-- R157: reverse the low `w` bits. -/
  | prev (rd rs1 : RegIdx) (imm : Nat)
  /-- R158: carry-less multiply. -/
  | pmul (rd rs1 rs2 : RegIdx)
  /-- R159: GF(2) quotient. -/
  | pdiv (rd rs1 rs2 : RegIdx)
  /-- R160: GF(2) remainder. -/
  | prem (rd rs1 rs2 : RegIdx)
  /-- R212: the reflected generator. -/
  | gpolyr (rd rs1 : RegIdx)
  /-- R213: the Barrett constant in natural order. -/
  | gbar (rd rs1 : RegIdx)
  /-- R214: the reflected Barrett constant. -/
  | gbarr (rd rs1 : RegIdx)
  /-- R215: a reflected fold constant. -/
  | gfoldr (rd rs1 : RegIdx) (imm : Nat)
  /-- R216: a remainder of a power of `x` in natural order. -/
  | gremx (rd rs1 : RegIdx) (imm : Nat)
  /-- R219: run the constant derivation pipeline into the result table. -/
  | derive (rs1 : RegIdx)
deriving DecidableEq, Repr

end Sys2Proof
end

