-- ==== Sys2Proof/WellFormed.lean ====
section
/-! DEFINITION. Which commands a command word can spell (spec/30_encoding.md R122, R129): the assembler refuses an
immediate outside 0..65535. Register operands need no check: `RegIdx` holds exactly `p0` to `p7`. -/

namespace Sys2Proof

/-- `IMM16` holds the values 0 to 65535 (R122). -/
def immFits (imm : Nat) : Bool := decide (imm ≤ 65535)

/-- The operand check of R129: a command that carries an immediate carries one that fits `IMM16`. -/
def Instr.wf : Instr → Bool
  | .nop => true
  | .pli _ imm => immFits imm
  | .pmov _ _ => true
  | .pxor _ _ _ => true
  | .pshl _ _ imm => immFits imm
  | .pshr _ _ imm => immFits imm
  | .pmask _ _ imm => immFits imm
  | .prev _ _ imm => immFits imm
  | .pmul _ _ _ => true
  | .pdiv _ _ _ => true
  | .prem _ _ _ => true
  | .gpolyr _ _ => true
  | .gbar _ _ => true
  | .gbarr _ _ => true
  | .gfoldr _ _ imm => immFits imm
  | .gremx _ _ imm => immFits imm
  | .derive _ => true

end Sys2Proof
end

