-- ==== Sys2Proof/Decode.lean ====
section
/-! DEFINITION. The command word (spec/30_encoding.md R120 to R128): its fields, the six operand forms, the opcode map, the
total decoder and, from the same tables, the encoder. -/

namespace Sys2Proof

/-! ### Fields of the command word (R121, R122) -/

/-- `OP`, bits 31 to 26. -/
def opField (w : Word) : BitVec 6 := w.extractLsb' 26 6

/-- `RD`, bits 25 to 23. -/
def rdField (w : Word) : RegIdx := (w.extractLsb' 23 3).toFin

/-- `RS1`, bits 22 to 20. -/
def rs1Field (w : Word) : RegIdx := (w.extractLsb' 20 3).toFin

/-- `RS2`, bits 19 to 17. -/
def rs2Field (w : Word) : RegIdx := (w.extractLsb' 17 3).toFin

/-- `IMM16`, bits 15 to 0, zero-extended: never sign-extended, scaled or shifted (R122). -/
def immField (w : Word) : Nat := (w.extractLsb' 0 16).toNat

/-! ### Operand forms (R123) -/

/-- The operand form of an opcode. -/
inductive Form where
  /-- No operands. -/
  | n
  /-- `pd, imm`. -/
  | ri
  /-- `pd, ps1`. -/
  | rr
  /-- `pd, ps1, ps2`. -/
  | rrr
  /-- `pd, ps1, imm`. -/
  | rri
  /-- `ps1`. -/
  | s
deriving DecidableEq, Repr

/-- The fields a form does not use, and `Z`: the bits that must be 0 (R123). -/
def Form.mustBeZero : Form → Word
  | .n => 0x03FFFFFF#32
  | .ri => 0x007F0000#32
  | .rr => 0x000FFFFF#32
  | .rrr => 0x0001FFFF#32
  | .rri => 0x000F0000#32
  | .s => 0x038FFFFF#32

/-! ### The opcode map (R124) -/

/-- The seventeen opcodes, one per row of the opcode map. -/
inductive Op where
  | nop | pli | pmov | pxor | pshl | pshr
  | pmask | prev | pmul | pdiv | prem
  | gpolyr | gbar | gbarr | gfoldr | gremx | derive
deriving DecidableEq, Repr

/-- The `OP` number of each row. -/
def Op.code : Op → BitVec 6
  | .nop => 0x01#6
  | .pli => 0x02#6
  | .pmov => 0x03#6
  | .pxor => 0x04#6
  | .pshl => 0x05#6
  | .pshr => 0x06#6
  | .pmask => 0x08#6
  | .prev => 0x09#6
  | .pmul => 0x0A#6
  | .pdiv => 0x0B#6
  | .prem => 0x0C#6
  | .gpolyr => 0x10#6
  | .gbar => 0x11#6
  | .gbarr => 0x12#6
  | .gfoldr => 0x13#6
  | .gremx => 0x14#6
  | .derive => 0x15#6

/-- The form of each row. -/
def Op.form : Op → Form
  | .nop => .n
  | .pli => .ri
  | .pmov => .rr
  | .pxor => .rrr
  | .pshl => .rri
  | .pshr => .rri
  | .pmask => .rri
  | .prev => .rri
  | .pmul => .rrr
  | .pdiv => .rrr
  | .prem => .rrr
  | .gpolyr => .rr
  | .gbar => .rr
  | .gbarr => .rr
  | .gfoldr => .rri
  | .gremx => .rri
  | .derive => .s

/-- The row with a given `OP` number; none for the reserved numbers 0x00, 0x07, 0x0D to 0x0F and 0x16 to 0x3F (R124,
R126). -/
def Op.ofCode (c : BitVec 6) : Option Op :=
  match c.toNat with
  | 0x01 => some .nop
  | 0x02 => some .pli
  | 0x03 => some .pmov
  | 0x04 => some .pxor
  | 0x05 => some .pshl
  | 0x06 => some .pshr
  | 0x08 => some .pmask
  | 0x09 => some .prev
  | 0x0A => some .pmul
  | 0x0B => some .pdiv
  | 0x0C => some .prem
  | 0x10 => some .gpolyr
  | 0x11 => some .gbar
  | 0x12 => some .gbarr
  | 0x13 => some .gfoldr
  | 0x14 => some .gremx
  | 0x15 => some .derive
  | _ => none

/-- A row's `match` word, `OP << 26`. -/
def Op.matchWord (o : Op) : Word := o.code.setWidth 32 <<< 26

/-- A row's `mask` word: the `OP` field and the bits its form requires to be 0. -/
def Op.maskWord (o : Op) : Word := 0xFC000000#32 ||| o.form.mustBeZero

/-- The command of a row with the operands its form uses; the others are not read (R127). -/
def Op.build (o : Op) (rd rs1 rs2 : RegIdx) (imm : Nat) : Instr :=
  match o with
  | .nop => .nop
  | .pli => .pli rd imm
  | .pmov => .pmov rd rs1
  | .pxor => .pxor rd rs1 rs2
  | .pshl => .pshl rd rs1 imm
  | .pshr => .pshr rd rs1 imm
  | .pmask => .pmask rd rs1 imm
  | .prev => .prev rd rs1 imm
  | .pmul => .pmul rd rs1 rs2
  | .pdiv => .pdiv rd rs1 rs2
  | .prem => .prem rd rs1 rs2
  | .gpolyr => .gpolyr rd rs1
  | .gbar => .gbar rd rs1
  | .gbarr => .gbarr rd rs1
  | .gfoldr => .gfoldr rd rs1 imm
  | .gremx => .gremx rd rs1 imm
  | .derive => .derive rs1

/-! ### The decoder (R125, R127) -/

/-- Why a command word is illegal (R125). -/
inductive Illegal where
  /-- (a) its `OP` is not one of the seventeen opcodes. -/
  | reservedOpcode
  /-- (b) a field its form requires to be 0, or `Z`, is not 0. -/
  | nonzeroField
deriving DecidableEq, Repr

/-- What the decoder makes of a command word. -/
inductive Decoded where
  /-- A legal word and the command it spells. -/
  | cmd (i : Instr)
  /-- An illegal word, rejected with the reason's name. -/
  | illegal (why : Illegal)
deriving DecidableEq, Repr

/-- `decode`, total on every 32-bit word (R127). -/
def decode (w : Word) : Decoded :=
  match Op.ofCode (opField w) with
  | none => .illegal .reservedOpcode
  | some o =>
    if w &&& o.maskWord ≠ o.matchWord then .illegal .nonzeroField
    else .cmd (o.build (rdField w) (rs1Field w) (rs2Field w) (immField w))

/-- The command a legal word spells, if it is legal. -/
def Decoded.instr? : Decoded → Option Instr
  | .cmd i => some i
  | .illegal _ => none

/-- The instruction the decoder reads from a table row's word: the command word is one 32-bit word and the table numbers
its bits as R121 does. Bits above `nbits` are 0. -/
def decodeTableWord (nbits w : Nat) : Option Instr :=
  (decode (BitVec.ofNat 32 (w % 2 ^ nbits))).instr?

/-! ### The encoder (R128) -/

/-- The row a command belongs to. -/
def Instr.op : Instr → Op
  | .nop => .nop
  | .pli _ _ => .pli
  | .pmov _ _ => .pmov
  | .pxor _ _ _ => .pxor
  | .pshl _ _ _ => .pshl
  | .pshr _ _ _ => .pshr
  | .pmask _ _ _ => .pmask
  | .prev _ _ _ => .prev
  | .pmul _ _ _ => .pmul
  | .pdiv _ _ _ => .pdiv
  | .prem _ _ _ => .prem
  | .gpolyr _ _ => .gpolyr
  | .gbar _ _ => .gbar
  | .gbarr _ _ => .gbarr
  | .gfoldr _ _ _ => .gfoldr
  | .gremx _ _ _ => .gremx
  | .derive _ => .derive

/-- `match | (rd << 23) | (rs1 << 20) | (rs2 << 17) | imm` (R128). -/
def encodeFields (o : Op) (rd rs1 rs2 : RegIdx) (imm : Nat) : Word :=
  o.matchWord ||| (BitVec.ofNat 32 rd.val <<< 23) ||| (BitVec.ofNat 32 rs1.val <<< 20)
    ||| (BitVec.ofNat 32 rs2.val <<< 17) ||| BitVec.ofNat 32 imm

/-- The command word of a well-formed command: each field its form does not use is written as 0 (R128). -/
def encode : Instr → Word
  | .nop => encodeFields .nop 0 0 0 0
  | .pli rd imm => encodeFields .pli rd 0 0 imm
  | .pmov rd rs1 => encodeFields .pmov rd rs1 0 0
  | .pxor rd rs1 rs2 => encodeFields .pxor rd rs1 rs2 0
  | .pshl rd rs1 imm => encodeFields .pshl rd rs1 0 imm
  | .pshr rd rs1 imm => encodeFields .pshr rd rs1 0 imm
  | .pmask rd rs1 imm => encodeFields .pmask rd rs1 0 imm
  | .prev rd rs1 imm => encodeFields .prev rd rs1 0 imm
  | .pmul rd rs1 rs2 => encodeFields .pmul rd rs1 rs2 0
  | .pdiv rd rs1 rs2 => encodeFields .pdiv rd rs1 rs2 0
  | .prem rd rs1 rs2 => encodeFields .prem rd rs1 rs2 0
  | .gpolyr rd rs1 => encodeFields .gpolyr rd rs1 0 0
  | .gbar rd rs1 => encodeFields .gbar rd rs1 0 0
  | .gbarr rd rs1 => encodeFields .gbarr rd rs1 0 0
  | .gfoldr rd rs1 imm => encodeFields .gfoldr rd rs1 0 imm
  | .gremx rd rs1 imm => encodeFields .gremx rd rs1 0 imm
  | .derive rs1 => encodeFields .derive 0 rs1 0 0

end Sys2Proof
end

