-- ==== Sys2Proof/Machine/Arith.lean ====
section
/-! DEFINITION. The meanings of the five commands of the GF(2) library (spec/40_gf2_arith.md R156 to R160). -/

namespace Sys2Proof.Machine

/-- `PMASK pd, ps1, w` (R156): `x[rd] <- mask(x[rs1], w)`. -/
def execPmask (rd rs1 : RegIdx) (imm : Nat) (s : State) : Host.Outcome State Fault Refusal :=
  writeResult rd (mask (s.readReg rs1) imm) s

/-- `PREV pd, ps1, w` (R157): `E_WIDTH` when `w > POLY_W`, on `w` alone; else `x[rd] <- brev(x[rs1], w)`. -/
def execPrev (rd rs1 : RegIdx) (imm : Nat) (s : State) : Host.Outcome State Fault Refusal :=
  if s.cfg.polyW < imm then raise .width s else writeResult rd (brev (s.readReg rs1) imm) s

/-- `PMUL pd, ps1, ps2` (R158): `x[rd] <- clmul(x[rs1], x[rs2])`, exact, or `E_WIDTH`. -/
def execPmul (rd rs1 rs2 : RegIdx) (s : State) : Host.Outcome State Fault Refusal :=
  writeChecked rd (clmul (s.readReg rs1) (s.readReg rs2)) s

/-- `PDIV pd, ps1, ps2` (R159): `E_ZDIV`, or `x[rd] <- pdiv(x[rs1], x[rs2])`. -/
def execPdiv (rd rs1 rs2 : RegIdx) (s : State) : Host.Outcome State Fault Refusal :=
  withDivisor (s.readReg rs2) s (writeResult rd (pdiv (s.readReg rs1) (s.readReg rs2)) s)

/-- `PREM pd, ps1, ps2` (R160): `E_ZDIV`, or `x[rd] <- prem(x[rs1], x[rs2])`. -/
def execPrem (rd rs1 rs2 : RegIdx) (s : State) : Host.Outcome State Fault Refusal :=
  withDivisor (s.readReg rs2) s (writeResult rd (prem (s.readReg rs1) (s.readReg rs2)) s)

end Sys2Proof.Machine
end

