-- ==== Sys2Proof/Machine/Derive.lean ====
section
/-! DEFINITION. The meanings of the six constant derivation commands (spec/42_derive.md R212 to R219). The generator is the
value of `x[rs1]`, of any degree (R210, R223). -/

namespace Sys2Proof.Machine

/-- `GPOLYR pd, ps1` (R212): `x[rd] <- brev(P >> 1, 32)`; it divides by nothing, so `P = 0` is no error. -/
def execGpolyr (rd rs1 : RegIdx) (s : State) : Host.Outcome State Fault Refusal :=
  writeResult rd (reflectedGenerator (s.readReg rs1)) s

/-- `GBAR pd, ps1` (R213): `E_ZDIV`, or `x[rd] <- pdiv(1 << 64, P)`. -/
def execGbar (rd rs1 : RegIdx) (s : State) : Host.Outcome State Fault Refusal :=
  withDivisor (s.readReg rs1) s (writeResult rd (barrett (s.readReg rs1)) s)

/-- `GBARR pd, ps1` (R214): `E_ZDIV`, or `x[rd] <- brev(pdiv(1 << 64, P) >> 1, 32)`. -/
def execGbarr (rd rs1 : RegIdx) (s : State) : Host.Outcome State Fault Refusal :=
  withDivisor (s.readReg rs1) s (writeResult rd (barrettReflected (s.readReg rs1)) s)

/-- `GFOLDR pd, ps1, N` (R215): `E_ZDIV`, then `E_OPERAND` for `N = 0`, else `x[rd] <- brev(prem(1 << (N-1), P), 32)`. -/
def execGfoldr (rd rs1 : RegIdx) (imm : Nat) (s : State) : Host.Outcome State Fault Refusal :=
  withDivisor (s.readReg rs1) s (withFoldWidth imm s (writeResult rd (foldConstant imm (s.readReg rs1)) s))

/-- `GREMX pd, ps1, E` (R216): `E_ZDIV`, or `x[rd] <- prem(1 << E, P)`. -/
def execGremx (rd rs1 : RegIdx) (imm : Nat) (s : State) : Host.Outcome State Fault Refusal :=
  withDivisor (s.readReg rs1) s (writeResult rd (powerRemainder imm (s.readReg rs1)) s)

/-- `DERIVE ps1` (R219): with `P = 0` the table is cleared and then `E_ZDIV` raised; else all sixteen slots are written and
`RESVALID` becomes `0xFFFF`, in the one step. -/
def execDerive (rs1 : RegIdx) (s : State) : Host.Outcome State Fault Refusal :=
  if s.readReg rs1 = 0 then raise .zdiv (s.writeTable (Vector.replicate 16 0) 0x0000#16)
  else finish (s.writeTable (deriveTable (s.readReg rs1)) 0xFFFF#16)

end Sys2Proof.Machine
end

