-- ==== Sys2Proof/Machine/Support.lean ====
section
/-! DEFINITION. The meanings of the six support commands (spec/41_support.md R180 to R185). -/

namespace Sys2Proof.Machine

/-- `NOP` (R180): the command completes and nothing else changes. -/
def execNop (s : State) : Host.Outcome State Fault Refusal := finish s

/-- `PLI pd, imm` (R181): `x[rd] <- imm`; the bits from 16 up become 0. -/
def execPli (rd : RegIdx) (imm : Nat) (s : State) : Host.Outcome State Fault Refusal := writeResult rd imm s

/-- `PMOV pd, ps1` (R182): `x[rd] <- x[rs1]`. -/
def execPmov (rd rs1 : RegIdx) (s : State) : Host.Outcome State Fault Refusal := writeResult rd (s.readReg rs1) s

/-- `PXOR pd, ps1, ps2` (R183): `x[rd] <- x[rs1] ^ x[rs2]`. -/
def execPxor (rd rs1 rs2 : RegIdx) (s : State) : Host.Outcome State Fault Refusal :=
  writeResult rd (s.readReg rs1 ^^^ s.readReg rs2) s

/-- `PSHL pd, ps1, s` (R184): `x[rd] <- x[rs1] << s`, or `E_WIDTH`. -/
def execPshl (rd rs1 : RegIdx) (imm : Nat) (s : State) : Host.Outcome State Fault Refusal :=
  writeChecked rd (s.readReg rs1 <<< imm) s

/-- `PSHR pd, ps1, s` (R185): `x[rd] <- x[rs1] >> s`. -/
def execPshr (rd rs1 : RegIdx) (imm : Nat) (s : State) : Host.Outcome State Fault Refusal :=
  writeResult rd (s.readReg rs1 >>> imm) s

end Sys2Proof.Machine
end

