-- ==== Sys2Proof/Machine/Dispatch.lean ====
section
/-! DEFINITION. The dispatch from a command to its meaning, one arm per constructor of `Instr`. Each meaning includes the
command's completion (spec/60_exceptions.md R257). -/

namespace Sys2Proof.Machine

def exec (i : Instr) (s : State) : Host.Outcome State Fault Refusal :=
  match i with
  | .nop => Sys2Proof.Machine.execNop s
  | .pli rd imm => Sys2Proof.Machine.execPli rd imm s
  | .pmov rd rs1 => Sys2Proof.Machine.execPmov rd rs1 s
  | .pxor rd rs1 rs2 => Sys2Proof.Machine.execPxor rd rs1 rs2 s
  | .pshl rd rs1 imm => Sys2Proof.Machine.execPshl rd rs1 imm s
  | .pshr rd rs1 imm => Sys2Proof.Machine.execPshr rd rs1 imm s
  | .pmask rd rs1 imm => Sys2Proof.Machine.execPmask rd rs1 imm s
  | .prev rd rs1 imm => Sys2Proof.Machine.execPrev rd rs1 imm s
  | .pmul rd rs1 rs2 => Sys2Proof.Machine.execPmul rd rs1 rs2 s
  | .pdiv rd rs1 rs2 => Sys2Proof.Machine.execPdiv rd rs1 rs2 s
  | .prem rd rs1 rs2 => Sys2Proof.Machine.execPrem rd rs1 rs2 s
  | .gpolyr rd rs1 => Sys2Proof.Machine.execGpolyr rd rs1 s
  | .gbar rd rs1 => Sys2Proof.Machine.execGbar rd rs1 s
  | .gbarr rd rs1 => Sys2Proof.Machine.execGbarr rd rs1 s
  | .gfoldr rd rs1 imm => Sys2Proof.Machine.execGfoldr rd rs1 imm s
  | .gremx rd rs1 imm => Sys2Proof.Machine.execGremx rd rs1 imm s
  | .derive rs1 => Sys2Proof.Machine.execDerive rs1 s

end Sys2Proof.Machine
end

