-- ==== Sys2Proof/Machine/Engine.lean ====
section
/-! DEFINITION. The engine's step (spec/10_state.md R36): decode the latched command word, execute its rule or raise the
error decode gave, complete. -/

namespace Sys2Proof.Machine

/-- `engine_step` (R36), for a state whose `BUSY` is 1. Each meaning completes its command itself (R257). -/
def engineStep (s : State) : Host.Outcome State Fault Refusal :=
  match decode s.cmdl with
  | .cmd i => exec i s
  | .illegal _ => raise .illegal s

/-- The engine's turn: while `BUSY = 0` the engine has no step (R36, R271). -/
def engineTurn (s : State) : Host.Outcome State Fault Refusal :=
  if s.busy then engineStep s else .next s

end Sys2Proof.Machine
end

