-- ==== Sys2Proof/Machine/Step.lean ====
section
/-! DEFINITION. One step of the machine: the next turn of the interleaving of the host, the engine and the reset input
(spec/00_scope.md R14, spec/10_state.md R36, spec/70_reset_and_hazards.md R290). -/

namespace Sys2Proof.Machine

/-- The state once its next turn has been taken up. -/
def State.popTurn (s : State) : State := s.withTurns s.turns.tail

/-- One step. With no turn left in the schedule a pending command's engine step happens (weak fairness, R299), and an idle
block holds its state (R271). -/
def step (s : State) : Host.Outcome State Fault Refusal :=
  match s.turns with
  | [] => engineTurn s
  | .engine :: _ => engineTurn s.popTurn
  | .host t :: _ => hostTurn t s.popTurn
  | .reset :: _ => .next (blockReset s.popTurn)

/-- GFPE fetches no instructions (R33): the next command a step runs is the one latched in `CMDL` while `BUSY = 1`. This
is `s` after the host's write of the word to `CMD` was accepted (R84), with the engine's turn next (log entry 4). -/
def State.withFetchWord (s : State) (nbits w : Nat) : State :=
  (acceptCommand (BitVec.ofNat 32 (w % 2 ^ nbits)) s).withTurns (.engine :: s.turns)

end Sys2Proof.Machine
end

