-- ==== Sys2Proof/Machine/Assembler.lean ====
section
/-! DEFINITION. The assembler of the spec (spec/30_encoding.md R129, R130): the pseudo-instructions and their expansions, the
operand check, and the line syntax. It stands beside the machine; no step uses it. -/

namespace Sys2Proof.Machine

/-! ### Pseudo-instructions (R130) -/

/-- The pseudo-instructions. -/
inductive Pseudo where
  | pclr (pd : RegIdx)
  | pone (pd : RegIdx)
  | pxpow (pd : RegIdx) (n : Nat)
  | pmask32 (pd ps : RegIdx)
  | prev32 (pd ps : RegIdx)
deriving DecidableEq, Repr

/-- The commands a pseudo-instruction stands for, in order; the 32-bit ones spell DOC's default width (R122, R130). -/
def Pseudo.expand : Pseudo → List Instr
  | .pclr pd => [.pli pd 0]
  | .pone pd => [.pli pd 1]
  | .pxpow pd n => [.pli pd 1, .pshl pd pd n]
  | .pmask32 pd ps => [.pmask pd ps 32]
  | .prev32 pd ps => [.prev pd ps 32]

/-! ### Lines and their words (R129) -/

/-- A source line, read. -/
inductive AsmLine where
  /-- Nothing, or a comment alone. -/
  | blank
  | instr (i : Instr)
  | pseudo (p : Pseudo)
  /-- `.word v`: a raw command word, which may be illegal. -/
  | word (v : Nat)
deriving DecidableEq, Repr

/-- The words of a list of commands, unless one has an operand out of range. -/
def assembleInstrs (l : List Instr) : Option (List Word) :=
  if l.all Instr.wf then some (l.map encode) else none

/-- The command words of a line; none is the assembler's error (R129). -/
def assembleLine : AsmLine → Option (List Word)
  | .blank => some []
  | .instr i => assembleInstrs [i]
  | .pseudo p => assembleInstrs p.expand
  | .word v => if v < 2 ^ 32 then some [BitVec.ofNat 32 v] else none

/-! ### The line syntax (R129) -/

/-- The lower-case name of an opcode. -/
def opName : Op → List Char
  | .nop => "nop".toList
  | .pli => "pli".toList
  | .pmov => "pmov".toList
  | .pxor => "pxor".toList
  | .pshl => "pshl".toList
  | .pshr => "pshr".toList
  | .pmask => "pmask".toList
  | .prev => "prev".toList
  | .pmul => "pmul".toList
  | .pdiv => "pdiv".toList
  | .prem => "prem".toList
  | .gpolyr => "gpolyr".toList
  | .gbar => "gbar".toList
  | .gbarr => "gbarr".toList
  | .gfoldr => "gfoldr".toList
  | .gremx => "gremx".toList
  | .derive => "derive".toList

/-- The opcodes in table order. -/
def opList : List Op :=
  [.nop, .pli, .pmov, .pxor, .pshl, .pshr, .pmask, .prev, .pmul, .pdiv, .prem, .gpolyr, .gbar, .gbarr, .gfoldr, .gremx,
    .derive]

/-- Blanks between the parts of a line. DESIGN CHOICE (log entry 6): R129 names none, so spaces and tabs are taken. -/
def isBlank (c : Char) : Bool := c == ' ' || c == '\t'

/-- A piece of a line without the blanks around it. -/
def trimBlanks (l : List Char) : List Char := ((l.dropWhile isBlank).reverse.dropWhile isBlank).reverse

/-- The pieces of a line between commas. -/
def splitCommas : List Char → List (List Char)
  | [] => [[]]
  | c :: cs =>
    match splitCommas cs with
    | [] => [[c]]
    | h :: t => if c == ',' then [] :: h :: t else (c :: h) :: t

/-- The value of a digit in a base up to 16. -/
def digitValue (base : Nat) (c : Char) : Option Nat :=
  let v :=
    if '0'.toNat ≤ c.toNat ∧ c.toNat ≤ '9'.toNat then some (c.toNat - '0'.toNat)
    else if 'a'.toNat ≤ c.toNat ∧ c.toNat ≤ 'f'.toNat then some (c.toNat - 'a'.toNat + 10)
    else if 'A'.toNat ≤ c.toNat ∧ c.toNat ≤ 'F'.toNat then some (c.toNat - 'A'.toNat + 10)
    else none
  v.bind fun d => if d < base then some d else none

/-- The value of a string of digits, most significant first, after those already read. -/
def digitsValue (base : Nat) : Nat → List Char → Option Nat
  | acc, [] => some acc
  | acc, c :: cs => (digitValue base c).bind fun d => digitsValue base (acc * base + d) cs

/-- `immediate`: decimal digits, or `0x` and hexadecimal digits. -/
def parseNumber : List Char → Option Nat
  | [] => none
  | ['0', 'x'] => none
  | '0' :: 'x' :: ds => digitsValue 16 0 ds
  | ds => digitsValue 10 0 ds

/-- An operand of a line. -/
inductive AsmOperand where
  | reg (i : RegIdx)
  | num (n : Nat)
deriving DecidableEq, Repr

/-- `register`: `p0` to `p7`. -/
def parseRegister : List Char → Option RegIdx
  | ['p', c] => (digitValue 8 c).bind fun d => if h : d < 8 then some ⟨d, h⟩ else none
  | _ => none

/-- `operand := register | immediate`. -/
def parseOperand (l : List Char) : Option AsmOperand :=
  match parseRegister l with
  | some i => some (.reg i)
  | none => (parseNumber l).map .num

/-- The operands of a line: none at all, or pieces between commas, each an operand. -/
def parseOperands (l : List Char) : Option (List AsmOperand) :=
  if l = [] then some [] else (splitCommas l).mapM fun piece => parseOperand (trimBlanks piece)

/-- The command of an opcode with operands in its form's order: destination, sources, immediate (R123). -/
def opWithOperands (o : Op) (l : List AsmOperand) : Option Instr :=
  match o.form, l with
  | .n, [] => some (o.build 0 0 0 0)
  | .ri, [.reg rd, .num imm] => some (o.build rd 0 0 imm)
  | .rr, [.reg rd, .reg rs1] => some (o.build rd rs1 0 0)
  | .rrr, [.reg rd, .reg rs1, .reg rs2] => some (o.build rd rs1 rs2 0)
  | .rri, [.reg rd, .reg rs1, .num imm] => some (o.build rd rs1 0 imm)
  | .s, [.reg rs1] => some (o.build 0 rs1 0 0)
  | _, _ => none

/-- The pseudo-instruction of a name with its operands. -/
def pseudoWithOperands (name : List Char) (l : List AsmOperand) : Option Pseudo :=
  match l with
  | [.reg pd] => if name = "pclr".toList then some (.pclr pd) else if name = "pone".toList then some (.pone pd) else none
  | [.reg pd, .num n] => if name = "pxpow".toList then some (.pxpow pd n) else none
  | [.reg pd, .reg ps] =>
    if name = "pmask32".toList then some (.pmask32 pd ps)
    else if name = "prev32".toList then some (.prev32 pd ps)
    else none
  | _ => none

/-- A line's mnemonic with its operands: an opcode, a pseudo-instruction or `.word`. -/
def lineWithOperands (name : List Char) (l : List AsmOperand) : Option AsmLine :=
  if name = ".word".toList then
    match l with
    | [.num v] => some (.word v)
    | _ => none
  else
    match opList.find? (fun o => opName o == name) with
    | some o => (opWithOperands o l).map .instr
    | none => (pseudoWithOperands name l).map .pseudo

/-- `line := [mnemonic [operand {"," operand}]] [";" comment]`. -/
def parseLine (text : List Char) : Option AsmLine :=
  let code := trimBlanks (text.takeWhile (fun c => c != ';'))
  if code = [] then some .blank
  else
    (parseOperands (trimBlanks (code.dropWhile (fun c => !isBlank c)))).bind fun l =>
      lineWithOperands (code.takeWhile (fun c => !isBlank c)) l

/-- The command words a line of text assembles to, if it is no assembler error. -/
def assemble (text : List Char) : Option (List Word) := (parseLine text).bind assembleLine

end Sys2Proof.Machine
end

