-- ==== Sys2Proof/Safety.lean ====
section
/-! DEFINITION. What counts as a safe state and a safe turn, in the terms claims use: no recorded error
(spec/60_exceptions.md R250), the invariants of every reachable state (spec/10_state.md R54), the host's obligations on the
bus (spec/20_memory.md R73, spec/70_reset_and_hazards.md R295). -/

namespace Sys2Proof.Machine

/-- "No error occurred": `ERR = 0` and `ERR_OVF = 0` (R250). -/
abbrev State.NoError (s : State) : Prop := s.err = false ∧ s.errOvf = false

/-- The result table holds nothing, or the whole derivation of one non-zero generator, which slot 0 then holds (R37,
R38, R54 items 2 and 3). -/
abbrev State.TableOk (s : State) : Prop :=
  (s.resValid = 0x0000#16 ∧ ∀ j, s.readSlot j = 0) ∨
    (s.resValid = 0xFFFF#16 ∧ s.readSlot 0 ≠ 0 ∧ ∀ j : SlotIdx, s.readSlot j = (deriveTable (s.readSlot 0))[j])

/-- The invariant of every reachable state: R54 with legal parameters (R6); besides, the error codes R251 gives, `CMDL` and
`LASTCMD` equal (R35), and no `DONE` while a command is pending (R84, R257). -/
structure State.Inv (s : State) : Prop where
  /-- The parameters are legal (R6, R71). -/
  cfg : s.cfg.WellFormed
  /-- R54 item 1. -/
  reg_fits : ∀ i, s.readReg i < 2 ^ s.cfg.polyW
  /-- R54 item 1. -/
  slot_fits : ∀ j, s.readSlot j < 2 ^ s.cfg.polyW
  /-- R54 items 2 and 3, and what the valid table holds (R38). -/
  table : s.TableOk
  /-- R54 item 4. -/
  no_err : s.err = false → s.errCode = 0#8 ∧ s.errInfo = 0#32
  /-- The codes 0x07 to 0xFF are never produced, and a recorded error has a code (R251). -/
  err_code : s.err = true → 1 ≤ s.errCode.toNat ∧ s.errCode.toNat ≤ 6
  /-- `LASTCMD` is set together with `CMDL` (R35). -/
  last_cmd : s.lastCmd = s.cmdl
  /-- `DONE = 1` always refers to the most recently accepted command (R84). -/
  busy_not_done : s.busy = true → s.done = false

/-- A turn that is no transaction refused with a bus ERROR (R73). -/
def Turn.answered (c : Config) : Turn → Prop
  | .host t => inWindow c t.addr → alignedWord t
  | .engine => True
  | .reset => True

/-- A turn of the host that asks for no reset: an answered transaction that is not a write of `SRST` (R86). -/
def Turn.hostOnly (c : Config) : Turn → Prop
  | .host t => (inWindow c t.addr → alignedWord t) ∧
      ∀ v, t.access = .write v → inWindow c t.addr → offsetOf t.addr = 0x008#12 → (BitVec.ofNat 32 v).getLsbD 31 = false
  | .engine => False
  | .reset => False

end Sys2Proof.Machine
end

