-- ==== Sys2Proof/Certificates/Slice0/Obligations.lean ====
section
/-! DEFINITION. The statements for the provers, and the predicates they are written in. A statement about a command's effect
names every part of the state: what it gives the destination, and what it leaves unchanged. -/

namespace Sys2Proof.Claims

open Sys2Proof.Machine

/-! ### What an engine step leaves unchanged, and what it leaves behind -/

/-- No command touches the parameters, `CTRL`, `CMDL`, `LASTCMD` or `DSEL`, nor the environment's turns and the port's last
answer. -/
structure ControlKept (s t : State) : Prop where
  cfg : t.cfg = s.cfg
  doneIE : t.doneIE = s.doneIE
  errIE : t.errIE = s.errIE
  cmdl : t.cmdl = s.cmdl
  lastCmd : t.lastCmd = s.lastCmd
  dselTarget : t.dselTarget = s.dselTarget
  dselLimb : t.dselLimb = s.dselLimb
  dselAinc : t.dselAinc = s.dselAinc
  turns : t.turns = s.turns
  reply : t.reply = s.reply

/-- `ERR`, `ERR_OVF`, `ERRCODE` and `ERRINFO` are as before. -/
def ErrorsKept (s t : State) : Prop :=
  t.err = s.err ∧ t.errOvf = s.errOvf ∧ t.errCode = s.errCode ∧ t.errInfo = s.errInfo

/-- Every result slot and `RESVALID` are as before. -/
def TableKept (s t : State) : Prop := t.resValid = s.resValid ∧ ∀ j, t.readSlot j = s.readSlot j

/-- Every polynomial register is as before. -/
def RegsKept (s t : State) : Prop := ∀ i, t.readReg i = s.readReg i

/-- The command has completed (R257). -/
def Completed (t : State) : Prop := t.busy = false ∧ t.done = true

/-- The first error is recorded with its code and information; a later one sets `ERR_OVF` and keeps them (R256). -/
def ErrorRecorded (code : BitVec 8) (info : Word) (s t : State) : Prop :=
  t.err = true ∧
    (s.err = false → t.errCode = code ∧ t.errInfo = info ∧ t.errOvf = s.errOvf) ∧
    (s.err = true → t.errCode = s.errCode ∧ t.errInfo = s.errInfo ∧ t.errOvf = true)

/-- A command delivered `v` to `x[rd]` and completed; nothing else changed. -/
def Delivers (rd : RegIdx) (v : Poly) (s t : State) : Prop :=
  t.readReg rd = v ∧ (∀ i, i ≠ rd → t.readReg i = s.readReg i) ∧ TableKept s t ∧ ErrorsKept s t ∧ Completed t ∧
    ControlKept s t

/-- A command raised an error: it is recorded with the command word, the command completed, nothing else changed. -/
def Fails (code : BitVec 8) (s t : State) : Prop :=
  RegsKept s t ∧ TableKept s t ∧ ErrorRecorded code s.cmdl s t ∧ Completed t ∧ ControlKept s t

/-- The engine's step, when it is next, answers a next state with `Q`: next because the schedule is empty (log entry 2), or
because the engine's turn stands first in it, which the step then takes off. -/
def EngineStepGives (Q : State → State → Prop) (s : State) : Prop :=
  (s.turns = [] → ∃ t, step s = .next t ∧ Q s t) ∧
    ∀ rest, s.turns = .engine :: rest → ∃ t, step s = .next t ∧ Q (s.withTurns rest) t

/-! ### The encoding tables of the spec, written out (R123, R124) -/

/-- The forms whose `RD` field is used. -/
def usesRd : Form → Bool
  | .ri | .rr | .rrr | .rri => true
  | .n | .s => false

/-- The forms whose `RS1` field is used. -/
def usesRs1 : Form → Bool
  | .rr | .rrr | .rri | .s => true
  | .n | .ri => false

/-- The forms whose `RS2` field is used. -/
def usesRs2 : Form → Bool
  | .rrr => true
  | .n | .ri | .rr | .rri | .s => false

/-- The forms whose `IMM16` field is used. -/
def usesImm : Form → Bool
  | .ri | .rri => true
  | .n | .rr | .rrr | .s => false

/-- The `match` and `mask` columns of R124. -/
def tableRow : Op → Word × Word
  | .nop => (0x04000000#32, 0xFFFFFFFF#32)
  | .pli => (0x08000000#32, 0xFC7F0000#32)
  | .pmov => (0x0C000000#32, 0xFC0FFFFF#32)
  | .pxor => (0x10000000#32, 0xFC01FFFF#32)
  | .pshl => (0x14000000#32, 0xFC0F0000#32)
  | .pshr => (0x18000000#32, 0xFC0F0000#32)
  | .pmask => (0x20000000#32, 0xFC0F0000#32)
  | .prev => (0x24000000#32, 0xFC0F0000#32)
  | .pmul => (0x28000000#32, 0xFC01FFFF#32)
  | .pdiv => (0x2C000000#32, 0xFC01FFFF#32)
  | .prem => (0x30000000#32, 0xFC01FFFF#32)
  | .gpolyr => (0x40000000#32, 0xFC0FFFFF#32)
  | .gbar => (0x44000000#32, 0xFC0FFFFF#32)
  | .gbarr => (0x48000000#32, 0xFC0FFFFF#32)
  | .gfoldr => (0x4C000000#32, 0xFC0F0000#32)
  | .gremx => (0x50000000#32, 0xFC0F0000#32)
  | .derive => (0x54000000#32, 0xFF8FFFFF#32)

/-- The row of R124 for an opcode: its `match` and `mask` decide, among the words with its `OP` number, which are legal; the
engine's step on any other raises `E_ILLEGAL`. -/
def SpelledBy (o : Op) (mtch msk : Word) : Prop :=
  ∀ w : Word, w &&& 0xFC000000#32 = mtch →
    (w &&& msk = mtch → ∃ i, decode w = .cmd i ∧ i.op = o) ∧
      (w &&& msk ≠ mtch → (∃ why, decode w = .illegal why) ∧
        ∀ s : State, s.busy = true → s.cmdl = w → EngineStepGives (Fails 0x01#8) s)

/-- The `OP` numbers R124 reserves. -/
def reservedOp (c : Nat) : Prop := c = 0x00 ∨ c = 0x07 ∨ (0x0D ≤ c ∧ c ≤ 0x0F) ∨ (0x16 ≤ c ∧ c ≤ 0x3F)

/-- A field that must be 0 is not: `Z`, or a field the opcode's form does not use (R125). -/
def badField (w : Word) (f : Form) : Prop :=
  w.getLsbD 16 = true ∨ (usesRd f = false ∧ w.extractLsb' 23 3 ≠ 0#3) ∨ (usesRs1 f = false ∧ w.extractLsb' 20 3 ≠ 0#3) ∨
    (usesRs2 f = false ∧ w.extractLsb' 17 3 ≠ 0#3) ∨ (usesImm f = false ∧ w.extractLsb' 0 16 ≠ 0#16)

/-- An illegal command word, in the words of R125. -/
def IllegalWord (w : Word) : Prop :=
  reservedOp (w.extractLsb' 26 6).toNat ∨ ∃ o : Op, (w.extractLsb' 26 6 = o.code ∧ badField w o.form)

/-! ### The window, in the words of R78 and R92 -/

/-- `GATED` (R92). -/
def GatedOffset (off : Nat) : Prop :=
  off = 0x010 ∨ off = 0x018 ∨ off = 0x01C ∨ off = 0x020 ∨ (0x100 ≤ off ∧ off ≤ 0x17C)

/-- Offsets of the window's words. -/
def WordOffset (off : Nat) : Prop := off < 0x1000 ∧ off % 4 = 0

/-- One bit as a field of a register word. -/
def bit (b : Bool) : BitVec 1 := BitVec.ofBool b

/-- What a read of each register other than DATA returns, its fields from bit 31 down (R42 to R51, R78). -/
def registerWord (s : State) (off : Nat) : Word :=
  if off = 0x000 then 0x47463250#32
  else if off = 0x004 then 16#8 ++ 8#8 ++ BitVec.ofNat 16 (s.cfg.polyW / 32)
  else if off = 0x008 then 0#30 ++ bit s.errIE ++ bit s.doneIE
  else if off = 0x00C then 0#16 ++ s.errCode ++ 0#4 ++ bit s.errOvf ++ bit s.err ++ bit s.done ++ bit s.busy
  else if off = 0x010 then s.lastCmd
  else if off = 0x014 then s.errInfo
  else if off = 0x018 then bit s.dselAinc ++ 0#7 ++ s.dselLimb ++ s.dselTarget
  else if off = 0x020 then 0#16 ++ s.resValid
  else if h : 0x100 ≤ off ∧ off < 0x180 then
    if off % 8 = 0 then BitVec.ofNat 32 (s.readSlot ⟨(off - 0x100) / 8, by omega⟩)
    else (BitVec.ofNat 32 (s.readSlot ⟨(off - 0x100) / 8, by omega⟩)).reverse
  else 0#32

/-- The value `DSEL.TARGET` selects, if it selects one: `x[t]` for 0x00 to 0x07, `RES[t - 0x10]` for 0x10 to 0x1F (R48). -/
def selectedValue (s : State) : Option Poly :=
  if h : s.dselTarget.toNat ≤ 7 then some (s.readReg ⟨s.dselTarget.toNat, by omega⟩)
  else if h : 0x10 ≤ s.dselTarget.toNat ∧ s.dselTarget.toNat ≤ 0x1F then
    some (s.readSlot ⟨s.dselTarget.toNat - 0x10, by omega⟩)
  else none

/-- The next turn is the host's 32-bit write, in the window and at the offset `off` its address bits 11 to 0 give (R71), of a
value whose bit `n` is 1. -/
def WindowWrite (off n : Nat) (s : State) : Prop :=
  ∃ a v rest, s.turns = .host ⟨a, 4, .write v⟩ :: rest ∧ (s.cfg.base ≤ a ∧ a < s.cfg.base + 0x1000) ∧ a % 0x1000 = off ∧
    (BitVec.ofNat 32 v).getLsbD n = true

/-- `s` after a turn of the host that the port answered with `r`. -/
def answered (s : State) (rest : List Turn) (r : Response) : State := (s.withTurns rest).answer r

/-- Every state element at its reset value (R53), for an instance with parameters `c`. -/
structure AtReset (c : Config) (t : State) : Prop where
  cfg : t.cfg = c
  x : ∀ i, t.readReg i = 0
  res : ∀ j, t.readSlot j = 0
  resValid : t.resValid = 0x0000#16
  enables : t.doneIE = false ∧ t.errIE = false
  flags : t.busy = false ∧ t.done = false ∧ t.err = false ∧ t.errOvf = false
  errCode : t.errCode = 0#8
  errInfo : t.errInfo = 0#32
  cmdl : t.cmdl = 0#32
  lastCmd : t.lastCmd = 0#32
  dsel : t.dselTarget = 0#8 ∧ t.dselLimb = 0#16 ∧ t.dselAinc = false
  idWord : registerWord t 0x000 = 0x47463250#32
  cfgWord : registerWord t 0x004 = 16#8 ++ 8#8 ++ BitVec.ofNat 16 (c.polyW / 32)
  irq : t.irq = false

end Sys2Proof.Claims

open Sys2Proof Sys2Proof.Machine Sys2Proof.Claims

/-! ## Encoding -/

/-- R128. -/
def Obligations.DecodeAndEncodeAgree : Prop :=
  (∀ i : Instr, i.wf = true → decode (encode i) = .cmd i) ∧
    (∀ (w : Word) (i : Instr), decode w = .cmd i → encode i = w ∧ i.wf = true) ∧
    ∀ (o : Op) (rd rs1 rs2 : RegIdx) (imm : Nat), imm ≤ 65535 →
      encode (o.build rd rs1 rs2 imm) =
        (tableRow o).1 ||| (if usesRd o.form then BitVec.ofNat 32 rd.val <<< 23 else 0#32)
          ||| (if usesRs1 o.form then BitVec.ofNat 32 rs1.val <<< 20 else 0#32)
          ||| (if usesRs2 o.form then BitVec.ofNat 32 rs2.val <<< 17 else 0#32)
          ||| (if usesImm o.form then BitVec.ofNat 32 imm else 0#32)

/-- R124: a word spells the instruction of a row exactly when its masked bits are the row's `match`. -/
def Obligations.RowsSpellTheirInstructions : Prop :=
  ∀ (w : Word) (o : Op), (∃ i, decode w = .cmd i ∧ i.op = o) ↔ w &&& (tableRow o).2 = (tableRow o).1

/-- R125 and R252: which words are illegal, and what the engine's step does with one. -/
def Obligations.IllegalWordsRaiseEIllegal : Prop :=
  (∀ w : Word, (∃ why, decode w = .illegal why) ↔ IllegalWord w) ∧
    ∀ s : State, s.busy = true → IllegalWord s.cmdl → EngineStepGives (Fails 0x01#8) s

/-- Words written out in the spec's vectors (95_test_vectors.md section 3.1) and programs. -/
def Obligations.SpecWordsDecodeAsWritten : Prop :=
  decode 0x04000000#32 = .cmd .nop ∧ decode 0x0880FFFF#32 = .cmd (.pli 1 0xFFFF) ∧
    decode 0x28A60000#32 = .cmd (.pmul 1 2 3) ∧ decode 0x4C802020#32 = .cmd (.gfoldr 1 0 8224) ∧
    decode 0x1490007F#32 = .cmd (.pshl 1 1 127) ∧ decode 0x54000000#32 = .cmd (.derive 0)

/-! ## Steps of the engine -/

/-- A step runs the decoded command: with the engine's turn next, or no turn left, `step` is `exec` of what `CMDL` decodes
to. -/
def Obligations.StepRunsTheDecodedCommand : Prop :=
  ∀ (s : State) (i : Instr), s.busy = true → decode s.cmdl = .cmd i →
    (s.turns = [] → step s = exec i s) ∧
      ∀ rest, s.turns = .engine :: rest → step s = exec i (s.withTurns rest)

/-- R271, last sentence: while `BUSY = 0` the engine has no step and all state is held. R70, last sentence: an address outside
the window does not reach GFPE. That such an access takes a step of its own, and that the schedule of turns loses it, is the
model's choice (log entries 2 and 7). -/
def Obligations.IdleEngineAndOutsideAccessHoldState : Prop :=
  ∀ s : State,
    (s.busy = false →
      (s.turns = [] → step s = .next s) ∧ ∀ rest, s.turns = .engine :: rest → step s = .next (s.withTurns rest)) ∧
    ∀ (t : Transaction) (rest : List Turn), s.turns = .host t :: rest →
      t.addr < s.cfg.base ∨ s.cfg.base + 0x1000 ≤ t.addr → step s = .next (s.withTurns rest)

/-- R257: every command, whether it succeeds or fails, completes in its one engine step, and so does every step of the engine,
on a legal word or not. -/
def Obligations.EveryCommandCompletes : Prop :=
  (∀ (i : Instr) (s : State), ∃ t, exec i s = .next t ∧ Completed t ∧ ControlKept s t) ∧
    ∀ s : State, s.busy = true → EngineStepGives (fun s t => Completed t ∧ ControlKept s t) s

/-! ## Support commands -/

/-- R180. -/
def Obligations.NopOnlyCompletes : Prop :=
  SpelledBy .nop 0x04000000#32 0xFFFFFFFF#32 ∧
    ∀ s : State, ∃ t, exec .nop s = .next t ∧ RegsKept s t ∧ TableKept s t ∧ ErrorsKept s t ∧ Completed t ∧ ControlKept s t

/-- R181. -/
def Obligations.PliLoadsItsImmediate : Prop :=
  SpelledBy .pli 0x08000000#32 0xFC7F0000#32 ∧
    ∀ (s : State) (rd : RegIdx) (imm : Nat), ∃ t, exec (.pli rd imm) s = .next t ∧ Delivers rd imm s t ∧
      (imm ≤ 65535 → ∀ n, 16 ≤ n → (t.readReg rd).testBit n = false)

/-- R182. -/
def Obligations.PmovCopiesARegister : Prop :=
  SpelledBy .pmov 0x0C000000#32 0xFC0FFFFF#32 ∧
    ∀ (s : State) (rd rs1 : RegIdx), ∃ t, exec (.pmov rd rs1) s = .next t ∧ Delivers rd (s.readReg rs1) s t

/-- R183. -/
def Obligations.PxorAddsCoefficientwise : Prop :=
  SpelledBy .pxor 0x10000000#32 0xFC01FFFF#32 ∧
    ∀ (s : State) (rd rs1 rs2 : RegIdx), ∃ t, exec (.pxor rd rs1 rs2) s = .next t ∧
      Delivers rd (s.readReg rs1 ^^^ s.readReg rs2) s t ∧
      (∀ n, (t.readReg rd).testBit n = ((s.readReg rs1).testBit n ^^ (s.readReg rs2).testBit n)) ∧
      (rs1 = rs2 → t.readReg rd = 0) ∧
      bitlen (t.readReg rd) ≤ max (bitlen (s.readReg rs1)) (bitlen (s.readReg rs2))

/-- R184. -/
def Obligations.PshlShiftsLeftOrRefuses : Prop :=
  SpelledBy .pshl 0x14000000#32 0xFC0F0000#32 ∧
    ∀ (s : State) (rd rs1 : RegIdx) (imm : Nat),
      (s.readReg rs1 = 0 ∨ deg (s.readReg rs1) + imm < s.cfg.polyW →
        ∃ t, exec (.pshl rd rs1 imm) s = .next t ∧ Delivers rd (s.readReg rs1 * 2 ^ imm) s t) ∧
      (s.readReg rs1 ≠ 0 ∧ s.cfg.polyW ≤ deg (s.readReg rs1) + imm →
        ∃ t, exec (.pshl rd rs1 imm) s = .next t ∧ Fails 0x03#8 s t)

/-- R185. -/
def Obligations.PshrDropsTheLowTerms : Prop :=
  SpelledBy .pshr 0x18000000#32 0xFC0F0000#32 ∧
    ∀ (s : State) (rd rs1 : RegIdx) (imm : Nat), ∃ t, exec (.pshr rd rs1 imm) s = .next t ∧
      Delivers rd (s.readReg rs1 / 2 ^ imm) s t ∧ (bitlen (s.readReg rs1) ≤ imm → t.readReg rd = 0)

/-! ## The GF(2) library's commands -/

/-- R156. -/
def Obligations.PmaskKeepsTheLowBits : Prop :=
  SpelledBy .pmask 0x20000000#32 0xFC0F0000#32 ∧
    ∀ (s : State) (rd rs1 : RegIdx) (imm : Nat), ∃ t, exec (.pmask rd rs1 imm) s = .next t ∧
      Delivers rd (s.readReg rs1 % 2 ^ imm) s t ∧
      (s.readReg rs1 < 2 ^ s.cfg.polyW → s.cfg.polyW ≤ imm → t.readReg rd = s.readReg rs1)

/-- R157. -/
def Obligations.PrevReversesTheLowBits : Prop :=
  SpelledBy .prev 0x24000000#32 0xFC0F0000#32 ∧
    ∀ (s : State) (rd rs1 : RegIdx) (imm : Nat),
      (imm ≤ s.cfg.polyW →
        ∃ t, exec (.prev rd rs1 imm) s = .next t ∧ Delivers rd (t.readReg rd) s t ∧
          ∀ n, (t.readReg rd).testBit n = (decide (n < imm) && (s.readReg rs1).testBit (imm - 1 - n))) ∧
      (s.cfg.polyW < imm → ∃ t, exec (.prev rd rs1 imm) s = .next t ∧ Fails 0x03#8 s t)

/-- R158. -/
def Obligations.PmulStoresTheExactProduct : Prop :=
  SpelledBy .pmul 0x28000000#32 0xFC01FFFF#32 ∧
    ∀ (s : State) (rd rs1 rs2 : RegIdx),
      (s.readReg rs1 = 0 ∨ s.readReg rs2 = 0 ∨ bitlen (s.readReg rs1) + bitlen (s.readReg rs2) ≤ s.cfg.polyW + 1 →
        ∃ t, exec (.pmul rd rs1 rs2) s = .next t ∧ Delivers rd (clmul (s.readReg rs1) (s.readReg rs2)) s t ∧
          (s.readReg rs1 = 0 ∨ s.readReg rs2 = 0 → t.readReg rd = 0) ∧
          (s.readReg rs1 = 1 → t.readReg rd = s.readReg rs2) ∧
          (rs1 = rs2 → ∀ n, (t.readReg rd).testBit (2 * n) = (s.readReg rs1).testBit n ∧
            (t.readReg rd).testBit (2 * n + 1) = false)) ∧
      (s.readReg rs1 ≠ 0 ∧ s.readReg rs2 ≠ 0 ∧ s.cfg.polyW + 1 < bitlen (s.readReg rs1) + bitlen (s.readReg rs2) →
        ∃ t, exec (.pmul rd rs1 rs2) s = .next t ∧ Fails 0x03#8 s t)

/-- R159. -/
def Obligations.PdivStoresTheQuotient : Prop :=
  SpelledBy .pdiv 0x2C000000#32 0xFC01FFFF#32 ∧
    ∀ (s : State) (rd rs1 rs2 : RegIdx),
      (s.readReg rs2 ≠ 0 →
        ∃ t r, exec (.pdiv rd rs1 rs2) s = .next t ∧ Delivers rd (pdiv (s.readReg rs1) (s.readReg rs2)) s t ∧
          s.readReg rs1 = clmul (t.readReg rd) (s.readReg rs2) ^^^ r ∧ bitlen r < bitlen (s.readReg rs2)) ∧
      (s.readReg rs2 = 0 → ∃ t, exec (.pdiv rd rs1 rs2) s = .next t ∧ Fails 0x02#8 s t)

/-- R160. -/
def Obligations.PremStoresTheRemainder : Prop :=
  SpelledBy .prem 0x30000000#32 0xFC01FFFF#32 ∧
    ∀ (s : State) (rd rs1 rs2 : RegIdx),
      (s.readReg rs2 ≠ 0 →
        ∃ t q, exec (.prem rd rs1 rs2) s = .next t ∧ Delivers rd (prem (s.readReg rs1) (s.readReg rs2)) s t ∧
          s.readReg rs1 = clmul q (s.readReg rs2) ^^^ t.readReg rd ∧ bitlen (t.readReg rd) < bitlen (s.readReg rs2)) ∧
      (s.readReg rs2 = 0 → ∃ t, exec (.prem rd rs1 rs2) s = .next t ∧ Fails 0x02#8 s t)

/-! ## The derivation commands -/

/-- R212: bit `n` of the result is bit `32 - n` of `P`. -/
def Obligations.GpolyrReflectsTheGenerator : Prop :=
  SpelledBy .gpolyr 0x40000000#32 0xFC0FFFFF#32 ∧
    ∀ (s : State) (rd rs1 : RegIdx), ∃ t, exec (.gpolyr rd rs1) s = .next t ∧
      Delivers rd (brev (s.readReg rs1 >>> 1) 32) s t ∧
      ∀ n, (t.readReg rd).testBit n = (decide (n < 32) && (s.readReg rs1).testBit (32 - n))

/-- R213. -/
def Obligations.GbarStoresTheBarrettConstant : Prop :=
  SpelledBy .gbar 0x44000000#32 0xFC0FFFFF#32 ∧
    ∀ (s : State) (rd rs1 : RegIdx),
      (s.readReg rs1 ≠ 0 →
        ∃ t r, exec (.gbar rd rs1) s = .next t ∧ Delivers rd (pdiv (2 ^ 64) (s.readReg rs1)) s t ∧
          2 ^ 64 = clmul (t.readReg rd) (s.readReg rs1) ^^^ r ∧ bitlen r < bitlen (s.readReg rs1) ∧
          bitlen (t.readReg rd) ≤ 65) ∧
      (s.readReg rs1 = 0 → ∃ t, exec (.gbar rd rs1) s = .next t ∧ Fails 0x02#8 s t)

/-- R214: bit `n` of the result is bit `32 - n` of the Barrett constant. -/
def Obligations.GbarrReflectsTheBarrettConstant : Prop :=
  SpelledBy .gbarr 0x48000000#32 0xFC0FFFFF#32 ∧
    ∀ (s : State) (rd rs1 : RegIdx),
      (s.readReg rs1 ≠ 0 →
        ∃ t, exec (.gbarr rd rs1) s = .next t ∧
          Delivers rd (brev (pdiv (2 ^ 64) (s.readReg rs1) >>> 1) 32) s t ∧
          ∀ n, (t.readReg rd).testBit n = (decide (n < 32) && (pdiv (2 ^ 64) (s.readReg rs1)).testBit (32 - n))) ∧
      (s.readReg rs1 = 0 → ∃ t, exec (.gbarr rd rs1) s = .next t ∧ Fails 0x02#8 s t)

/-- R215, with the order of its checks (R260). -/
def Obligations.GfoldrStoresTheFoldConstant : Prop :=
  SpelledBy .gfoldr 0x4C000000#32 0xFC0F0000#32 ∧
    ∀ (s : State) (rd rs1 : RegIdx) (imm : Nat),
      (s.readReg rs1 ≠ 0 ∧ imm ≠ 0 →
        ∃ t, exec (.gfoldr rd rs1 imm) s = .next t ∧
          Delivers rd (brev (prem (2 ^ (imm - 1)) (s.readReg rs1)) 32) s t ∧
          ∀ n, (t.readReg rd).testBit n =
            (decide (n < 32) && (prem (2 ^ (imm - 1)) (s.readReg rs1)).testBit (31 - n))) ∧
      (s.readReg rs1 ≠ 0 ∧ imm = 0 → ∃ t, exec (.gfoldr rd rs1 imm) s = .next t ∧ Fails 0x04#8 s t) ∧
      (s.readReg rs1 = 0 → ∃ t, exec (.gfoldr rd rs1 imm) s = .next t ∧ Fails 0x02#8 s t)

/-- R216. -/
def Obligations.GremxStoresThePowerRemainder : Prop :=
  SpelledBy .gremx 0x50000000#32 0xFC0F0000#32 ∧
    ∀ (s : State) (rd rs1 : RegIdx) (imm : Nat),
      (s.readReg rs1 ≠ 0 →
        ∃ t, exec (.gremx rd rs1 imm) s = .next t ∧ Delivers rd (prem (2 ^ imm) (s.readReg rs1)) s t ∧
          bitlen (t.readReg rd) < bitlen (s.readReg rs1) ∧
          (imm < deg (s.readReg rs1) → t.readReg rd = 2 ^ imm)) ∧
      (s.readReg rs1 = 0 → ∃ t, exec (.gremx rd rs1 imm) s = .next t ∧ Fails 0x02#8 s t)

/-- R219 and R218: the sixteen slots, all or none. -/
def Obligations.DeriveFillsOrClearsTheTable : Prop :=
  SpelledBy .derive 0x54000000#32 0xFF8FFFFF#32 ∧
    ∀ (s : State) (rs1 : RegIdx), ∃ t, exec (.derive rs1) s = .next t ∧ RegsKept s t ∧ Completed t ∧ ControlKept s t ∧
      (s.readReg rs1 = 0 → (∀ j, t.readSlot j = 0) ∧ t.resValid = 0x0000#16 ∧ ErrorRecorded 0x02#8 s.cmdl s t) ∧
      (s.readReg rs1 ≠ 0 → t.resValid = 0xFFFF#16 ∧ ErrorsKept s t ∧
        t.readSlot 0 = s.readReg rs1 ∧
        t.readSlot 1 = brev (s.readReg rs1 >>> 1) 32 ∧
        t.readSlot 2 = pdiv (2 ^ 64) (s.readReg rs1) ∧
        t.readSlot 3 = brev (pdiv (2 ^ 64) (s.readReg rs1) >>> 1) 32 ∧
        t.readSlot 4 = prem (2 ^ 64) (s.readReg rs1) ∧
        t.readSlot 5 = brev (prem (2 ^ 63) (s.readReg rs1)) 32 ∧
        t.readSlot 6 = brev (prem (2 ^ 95) (s.readReg rs1)) 32 ∧
        t.readSlot 7 = brev (prem (2 ^ 127) (s.readReg rs1)) 32 ∧
        t.readSlot 8 = brev (prem (2 ^ 143) (s.readReg rs1)) 32 ∧
        t.readSlot 9 = brev (prem (2 ^ 159) (s.readReg rs1)) 32 ∧
        t.readSlot 10 = brev (prem (2 ^ 2047) (s.readReg rs1)) 32 ∧
        t.readSlot 11 = brev (prem (2 ^ 2079) (s.readReg rs1)) 32 ∧
        t.readSlot 12 = brev (prem (2 ^ 4095) (s.readReg rs1)) 32 ∧
        t.readSlot 13 = brev (prem (2 ^ 4127) (s.readReg rs1)) 32 ∧
        t.readSlot 14 = brev (prem (2 ^ 8191) (s.readReg rs1)) 32 ∧
        t.readSlot 15 = brev (prem (2 ^ 8223) (s.readReg rs1)) 32)

/-- R221: for every `P ≠ 0` the single commands give the values of the corresponding DERIVE slots. -/
def Obligations.DeriveSlotsEqualTheSingleCommands : Prop :=
  ∀ (s : State) (rd rs1 : RegIdx), s.readReg rs1 ≠ 0 →
    ∃ t t1 t2 t3 t4, exec (.derive rs1) s = .next t ∧
      exec (.gpolyr rd rs1) s = .next t1 ∧ t.readSlot 1 = t1.readReg rd ∧
      exec (.gbar rd rs1) s = .next t2 ∧ t.readSlot 2 = t2.readReg rd ∧
      exec (.gbarr rd rs1) s = .next t3 ∧ t.readSlot 3 = t3.readReg rd ∧
      exec (.gremx rd rs1 64) s = .next t4 ∧ t.readSlot 4 = t4.readReg rd ∧
      ∀ i : Fin 11, ∃ u, exec (.gfoldr rd rs1 #v[64, 96, 128, 144, 160, 2048, 2080, 4096, 4128, 8192, 8224][i]) s = .next u ∧
        t.readSlot ⟨5 + i.val, by omega⟩ = u.readReg rd

/-! ## Laws of the arithmetic -/

/-- R151: bit 0 of the input becomes bit `w - 1` of the output, and nothing above bit `w - 1` appears. -/
def Obligations.ReversalMovesEachBit : Prop :=
  ∀ a w : Nat, brev a w < 2 ^ w ∧ ∀ n, n < w → (brev a w).testBit n = a.testBit (w - 1 - n)

/-- R152, as coefficients: coefficient `n` of the product is the parity of the number of index pairs that sum to `n` and
both have coefficient 1. -/
def Obligations.ProductCoefficientsAreParities : Prop :=
  ∀ a b n : Nat, (clmul a b).testBit n =
    decide ((List.range (n + 1)).countP (fun i => a.testBit i && b.testBit (n - i)) % 2 = 1)

/-- R154: the division identity, the degree bound, the corner cases, and the uniqueness that R154 adds, which the spec itself
marks as general knowledge, not in its source (93_implementation_defined.md G4). -/
def Obligations.DivisionAlgorithmIsCorrect : Prop :=
  ∀ a b : Nat, b ≠ 0 →
    a = clmul (pdiv a b) b ^^^ prem a b ∧
      (prem a b = 0 ∨ deg (prem a b) < deg b) ∧
      (a = 0 ∨ deg a < deg b → pdiv a b = 0 ∧ prem a b = a) ∧
      (a ≠ 0 → deg b ≤ deg a → pdiv a b ≠ 0 ∧ deg (pdiv a b) = deg a - deg b) ∧
      (pdiv a 1 = a ∧ prem a 1 = 0) ∧
      ∀ q r, a = clmul q b ^^^ r → (r = 0 ∨ deg r < deg b) → q = pdiv a b ∧ r = prem a b

/-- R155: the five laws DOC states as testable properties. -/
def Obligations.LibraryLawsHold : Prop :=
  (∀ a b : Nat, b ≠ 0 → clmul (pdiv a b) b ^^^ prem a b = a ∧ (prem a b = 0 ∨ deg (prem a b) < deg b)) ∧
    (∀ a w : Nat, brev (brev a w) w = mask a w ∧ (bitlen a ≤ w → brev (brev a w) w = a)) ∧
    (∀ a w : Nat, mask (mask a w) w = mask a w) ∧
    (∀ a b : Nat, clmul a b = clmul b a ∧ (a ≠ 0 → b ≠ 0 → clmul a b ≠ 0 ∧ deg (clmul a b) = deg a + deg b)) ∧
    ∀ (s : State) (rd rs1 rs2 : RegIdx), s.readReg rs2 = 0 →
      (∃ t, exec (.pdiv rd rs1 rs2) s = .next t ∧ Fails 0x02#8 s t) ∧
        ∃ t, exec (.prem rd rs1 rs2) s = .next t ∧ Fails 0x02#8 s t

/-- Carry-less multiplication is the product of a commutative ring with XOR as its sum: associative, distributive, with unit
1, and multiplication by `x^s` is the shift by `s`. -/
def Obligations.ProductIsRingMultiplication : Prop :=
  (∀ a b c : Nat, clmul (clmul a b) c = clmul a (clmul b c)) ∧
    (∀ a b c : Nat, clmul a (b ^^^ c) = clmul a b ^^^ clmul a c) ∧
    (∀ a : Nat, clmul 1 a = a ∧ clmul a 1 = a) ∧ ∀ a s : Nat, clmul (2 ^ s) a = a <<< s

/-- R217's reason for the fold constants: data `n` bits behind the current position may be multiplied by `x^n mod P` before
it is XORed in, and the remainder by `P` is the same. -/
def Obligations.FoldingKeepsTheRemainder : Prop :=
  ∀ p a c n : Nat, p ≠ 0 → prem ((a <<< n) ^^^ c) p = prem (clmul a (prem (2 ^ n) p) ^^^ c) p

/-- R220: the two 32-bit views, and that reversing twice gives the masked view. -/
def Obligations.ViewsOfAResult : Prop :=
  ∀ v : Nat, viewMasked v = BitVec.ofNat 32 v ∧ viewReversed v = (BitVec.ofNat 32 v).reverse ∧
    (viewMasked v).toNat = mask v 32 ∧ (viewReversed v).toNat = brev v 32 ∧
    viewMasked (viewMasked v).toNat = viewMasked v ∧ viewReversed (viewReversed v).toNat = viewMasked v

/-! ## The bus -/

/-- R73 and R74: a transaction in the window that is not 32 bits wide and word aligned changes no state and is a fault of
the host's step; every aligned 32-bit one is answered OKAY. -/
def Obligations.OnlyAlignedWordsInTheWindowAreAnswered : Prop :=
  ∀ (s : State) (t : Transaction) (rest : List Turn), s.turns = .host t :: rest →
    s.cfg.base ≤ t.addr ∧ t.addr < s.cfg.base + 0x1000 →
      (t.size ≠ 4 ∨ t.addr % 4 ≠ 0 → step s = .fault (.busError t) ∧ portAccess t s = (s, .error)) ∧
      (t.size = 4 ∧ t.addr % 4 = 0 → ∃ u, step s = .next u ∧
        ((t.access = .read ∧ ∃ w, u.reply = some (.okayRead w)) ∨
          ((∃ v, t.access = .write v) ∧ u.reply = some .okayWrite)))

/-- R78 for every offset but DATA: each register reads as its fields, reserved bits and offsets as 0, with no side effect. -/
def Obligations.RegistersReadAsTheirFields : Prop :=
  ∀ (s : State) (off : Nat) (rest : List Turn), s.cfg.WellFormed → WordOffset off → off ≠ 0x01C →
    s.busy = false ∨ ¬ GatedOffset off → s.turns = rd s.cfg off :: rest →
      step s = .next (answered s rest (.okayRead (registerWord s off)))

/-- R80 and R82: a DATA read. -/
def Obligations.DataReadReturnsTheSelectedLimb : Prop :=
  ∀ (s : State) (rest : List Turn), s.cfg.WellFormed → s.busy = false → s.turns = rd s.cfg 0x01C :: rest →
    (∀ v, s.dselLimb.toNat < s.cfg.polyW / 32 → selectedValue s = some v →
      step s = .next { answered s rest (.okayRead (BitVec.ofNat 32 (v / 2 ^ (32 * s.dselLimb.toNat)))) with
        dselLimb := if s.dselAinc then BitVec.ofNat 16 (s.dselLimb.toNat + 1) else s.dselLimb }) ∧
    (s.cfg.polyW / 32 ≤ s.dselLimb.toNat ∨ selectedValue s = none →
      ∃ t, step s = .next t ∧ ErrorRecorded 0x06#8 0x0000001C#32 s t ∧
        RegsKept s t ∧ TableKept s t ∧ t.busy = s.busy ∧ t.done = s.done ∧
        ControlKept (answered s rest (.okayRead 0#32)) t)

/-- R81, R82 and R76: a DATA write replaces one limb of one register. -/
def Obligations.DataWriteReplacesOneLimb : Prop :=
  ∀ (s : State) (d : Word) (rest : List Turn), s.cfg.WellFormed → s.busy = false → s.turns = wr s.cfg 0x01C d :: rest →
    (∀ i : RegIdx, s.dselLimb.toNat < s.cfg.polyW / 32 → s.dselTarget.toNat = i.val →
      ∃ t, step s = .next t ∧
        (∀ n, (t.readReg i).testBit n =
          if 32 * s.dselLimb.toNat ≤ n ∧ n < 32 * s.dselLimb.toNat + 32 then d.getLsbD (n - 32 * s.dselLimb.toNat)
          else (s.readReg i).testBit n) ∧
        (∀ k, k ≠ i → t.readReg k = s.readReg k) ∧ TableKept s t ∧ ErrorsKept s t ∧ t.busy = s.busy ∧ t.done = s.done ∧
        ControlKept { answered s rest .okayWrite with
          dselLimb := if s.dselAinc then BitVec.ofNat 16 (s.dselLimb.toNat + 1) else s.dselLimb } t) ∧
    (s.cfg.polyW / 32 ≤ s.dselLimb.toNat ∨ 8 ≤ s.dselTarget.toNat →
      ∃ t, step s = .next t ∧ ErrorRecorded 0x06#8 0x8000001C#32 s t ∧ RegsKept s t ∧ TableKept s t ∧ t.busy = s.busy ∧
        t.done = s.done ∧ ControlKept (answered s rest .okayWrite) t)

/-- A limb written through DATA is the limb DATA then reads, and any other limb of the same register reads as before. -/
def Obligations.LimbReadAfterLimbWrite : Prop :=
  ∀ (v : Poly) (k j : Nat) (d : Word), limb (setLimb v k d) k = d ∧ (j ≠ k → limb (setLimb v k d) j = limb v j) ∧
    ∀ n, k < n → v < 2 ^ (32 * n) → setLimb v k d < 2 ^ (32 * n)

/-- R258 and R92: while a command is pending an access to a GATED offset is refused. -/
def Obligations.GatedAccessIsRefusedWhileBusy : Prop :=
  ∀ (s : State) (off : Nat) (rest : List Turn), s.cfg.WellFormed → s.busy = true → WordOffset off → GatedOffset off →
    (s.turns = rd s.cfg off :: rest →
      ∃ t, step s = .next t ∧ ErrorRecorded 0x05#8 (BitVec.ofNat 32 off) s t ∧ RegsKept s t ∧ TableKept s t ∧
        t.busy = true ∧ t.done = s.done ∧ ControlKept (answered s rest (.okayRead 0#32)) t) ∧
    ∀ d, s.turns = wr s.cfg off d :: rest →
      ∃ t, step s = .next t ∧ ErrorRecorded 0x05#8 (BitVec.ofNat 32 (2 ^ 31 + off)) s t ∧ RegsKept s t ∧ TableKept s t ∧
        t.busy = true ∧ t.done = s.done ∧ ControlKept (answered s rest .okayWrite) t

/-- R84: any word is accepted while `BUSY = 0`, and dropped while `BUSY = 1`. -/
def Obligations.CmdWriteIssuesAnyWord : Prop :=
  ∀ (s : State) (d : Word) (rest : List Turn), s.cfg.WellFormed → s.turns = wr s.cfg 0x010 d :: rest →
    (s.busy = false →
      step s = .next { answered s rest .okayWrite with cmdl := d, lastCmd := d, done := false, busy := true }) ∧
    (s.busy = true → ∃ t, step s = .next t ∧ ErrorRecorded 0x05#8 0x80000010#32 s t ∧ RegsKept s t ∧ TableKept s t ∧
      t.busy = true ∧ t.done = s.done ∧ ControlKept (answered s rest .okayWrite) t)

/-- R85: writing 1 clears; the other bits are ignored. -/
def Obligations.StatusWriteClearsFlags : Prop :=
  ∀ (s : State) (d : Word) (rest : List Turn), s.cfg.WellFormed → s.turns = wr s.cfg 0x00C d :: rest →
    ∃ t, step s = .next t ∧ t.busy = s.busy ∧ t.done = (s.done && !d.getLsbD 1) ∧ t.err = (s.err && !d.getLsbD 2) ∧
      t.errOvf = (s.errOvf && !d.getLsbD 3) ∧
      (d.getLsbD 2 = true → t.errCode = 0#8 ∧ t.errInfo = 0#32) ∧
      (d.getLsbD 2 = false → t.errCode = s.errCode ∧ t.errInfo = s.errInfo) ∧ RegsKept s t ∧ TableKept s t ∧
      ControlKept (answered s rest .okayWrite) t

/-- R86: `SRST` resets the whole block, else the two enables are stored. -/
def Obligations.CtrlWriteStoresEnablesOrResets : Prop :=
  ∀ (s : State) (d : Word) (rest : List Turn), s.cfg.WellFormed → s.turns = wr s.cfg 0x008 d :: rest →
    (d.getLsbD 31 = true → step s = .next { State.resetOf s.cfg with turns := rest, reply := some .okayWrite }) ∧
      (d.getLsbD 31 = false →
        step s = .next { answered s rest .okayWrite with doneIE := d.getLsbD 0, errIE := d.getLsbD 1 })

/-- R48: every value of the fields is stored and reads back; the reserved bits read 0. -/
def Obligations.DselReadsBackAsWritten : Prop :=
  ∀ (s : State) (d : Word) (rest : List Turn), s.cfg.WellFormed → s.busy = false → s.turns = wr s.cfg 0x018 d :: rest →
    ∃ t, step s = .next t ∧ t = { answered s rest .okayWrite with
        dselTarget := t.dselTarget, dselLimb := t.dselLimb, dselAinc := t.dselAinc } ∧
      registerWord t 0x018 = d &&& 0x80FFFFFF#32

/-- R41 (RO) and R77: a write to a read-only register or a reserved offset has no effect and is answered OKAY. -/
def Obligations.ReadOnlyOffsetsIgnoreWrites : Prop :=
  ∀ (s : State) (d : Word) (off : Nat) (rest : List Turn), s.cfg.WellFormed → WordOffset off →
    off ≠ 0x008 ∧ off ≠ 0x00C ∧ off ≠ 0x010 ∧ off ≠ 0x018 ∧ off ≠ 0x01C → s.busy = false ∨ ¬ GatedOffset off →
    s.turns = wr s.cfg off d :: rest → step s = .next (answered s rest .okayWrite)

/-- R87: a second equal write to `STATUS`, `CTRL` without `SRST`, or `DSEL` changes nothing more. -/
def Obligations.ControlWritesAreIdempotent : Prop :=
  ∀ (s : State) (d : Word) (off : BitVec 12),
    off = 0x00C#12 ∨ (off = 0x008#12 ∧ d.getLsbD 31 = false) ∨ (off = 0x018#12 ∧ s.busy = false) →
      busWrite off d (busWrite off d s) = busWrite off d s

/-- R75: byte lane `k` carries bits `8k+7` to `8k`, and the four lanes make the word again. -/
def Obligations.BusWordsAreLittleEndian : Prop :=
  ∀ w : Word, (∀ (k : Fin 4) (j : Nat), j < 8 → (byteLane w k).getLsbD j = w.getLsbD (8 * k.val + j)) ∧
    wordOfLanes (byteLane w 0) (byteLane w 1) (byteLane w 2) (byteLane w 3) = w

/-! ## Errors, interrupt and reset -/

/-- R256: the first error since `ERR` was last cleared is the one reported: no step changes `ERRCODE` or `ERRINFO` while
`ERR` is 1, but the reset input's, a write of `SRST` to `CTRL`, or a write of 1 to `STATUS.ERR` (R85, R265), which clear
them with it. -/
def Obligations.FirstErrorIsKept : Prop :=
  ∀ s t : State, s.err = true → step s = .next t →
    (t.err = true ∧ t.errCode = s.errCode ∧ t.errInfo = s.errInfo) ∨
      (t.err = false ∧ t.errCode = 0#8 ∧ t.errInfo = 0#32 ∧
        ((∃ rest, s.turns = .reset :: rest) ∨ WindowWrite 0x008 31 s ∨ WindowWrite 0x00C 2 s))

/-- R272: after any error the next command runs normally: what a command does to registers and results does not depend on
the error state. -/
def Obligations.ErrorsDoNotBlockCommands : Prop :=
  ∀ (i : Instr) (s : State) (e o : Bool) (c : BitVec 8) (w : Word), ∃ t u, exec i s = .next t ∧
    exec i { s with err := e, errOvf := o, errCode := c, errInfo := w } = .next u ∧ RegsKept t u ∧ TableKept t u ∧
      u.busy = t.busy ∧ u.done = t.done

/-- R262. -/
def Obligations.IrqIsALevelOfTheState : Prop :=
  ∀ s : State, (s.irq = true ↔ (s.done = true ∧ s.doneIE = true) ∨ (s.err = true ∧ s.errIE = true)) ∧
    s.irqOn s.cfg.irqLine = s.irq

/-- R263: enable and mask, pending, clear. -/
def Obligations.InterruptSourcesAreMaskedAndCleared : Prop :=
  ∀ (s : State) (d : Word),
    (d.getLsbD 31 = false →
      (busWrite 0x008#12 d s).irq = ((s.done && d.getLsbD 0) || (s.err && d.getLsbD 1)) ∧
        (busWrite 0x008#12 d s).done = s.done ∧ (busWrite 0x008#12 d s).err = s.err) ∧
      (busWrite 0x00C#12 d s).irq = ((s.done && !d.getLsbD 1 && s.doneIE) || (s.err && !d.getLsbD 2 && s.errIE)) ∧
      (s.busy = false → (busWrite 0x010#12 d s).irq = (s.err && s.errIE)) ∧
      ∀ b, ({ s with errOvf := b } : State).irq = s.irq

/-- The state `State.reset`, and the state of any other instance right after reset, have every element at its value of
R53. -/
def Obligations.ResetValues : Prop :=
  AtReset State.reset.cfg State.reset ∧ State.reset.cfg.WellFormed ∧ registerWord State.reset 0x004 = 0x10080202#32 ∧
    ∀ c : Config, AtReset c (State.resetOf c)

/-- R53, R290 to R292: both reset sources, at any moment, pending command or not, set every element to its value of R53. That a
reset keeps the turns to come and the port's last answer (`t.turns`, `t.reply`) is the model's choice (log entry 15). -/
def Obligations.BothResetSourcesSetEveryElement : Prop :=
  ∀ (s : State) (rest : List Turn),
    (s.turns = .reset :: rest → ∃ t, step s = .next t ∧ AtReset s.cfg t ∧ t.turns = rest ∧ t.reply = s.reply) ∧
      ∀ d : Word, s.cfg.WellFormed → d.getLsbD 31 = true → s.turns = wr s.cfg 0x008 d :: rest →
        ∃ t, step s = .next t ∧ AtReset s.cfg t ∧ t.turns = rest ∧ t.reply = some .okayWrite

/-! ## The whole machine -/

/-- The invariant at reset, for legal parameters. -/
def Obligations.InvariantAtReset : Prop := ∀ c : Config, c.WellFormed → (State.resetOf c).Inv

/-- R54 and the model's further invariants: every step keeps them. -/
def Obligations.EveryStepKeepsTheInvariant : Prop := ∀ s t : State, s.Inv → step s = .next t → t.Inv

/-- R37: no bus write and no command other than DERIVE changes a slot; the two reset sources clear them (R291). A step that
changes one is the engine's, with DERIVE pending, or a reset. -/
def Obligations.OnlyDeriveOrResetChangesResults : Prop :=
  ∀ s t : State, step s = .next t → ¬ TableKept s t →
    ((s.turns = [] ∨ ∃ rest, s.turns = .engine :: rest) ∧ s.busy = true ∧ ∃ rs1, decode s.cmdl = .cmd (.derive rs1)) ∨
      (∃ rest, s.turns = .reset :: rest) ∨ WindowWrite 0x008 31 s

/-- R12 and R31: a command changes at most the register its `RD` names, and DERIVE and NOP change none. -/
def Obligations.CommandsChangeOnlyTheirDestination : Prop :=
  ∀ (w : Word) (i : Instr) (s t : State), decode w = .cmd i → exec i s = .next t →
    (∀ k, k ≠ rdField w → t.readReg k = s.readReg k) ∧ (usesRd i.op.form = false → RegsKept s t)

/-- R92: the pending command is not disturbed. Whatever the host does at the port before the engine's step, short of a reset
or a bus ERROR, the command has the effect on registers and results that it has when it runs at once, and it completes; the
parameters, `CMDL` and `LASTCMD` are as they were. -/
def Obligations.PendingCommandIsNotDisturbed : Prop :=
  ∀ (s : State) (ts : List Turn), s.busy = true → (∀ t ∈ ts, t.hostOnly s.cfg) →
    ∃ t u, core.run 1 (s.withTurns ([.engine])) = .next t ∧
      core.run (ts.length + 1) (s.withTurns (ts ++ [.engine])) = .next u ∧ RegsKept t u ∧ TableKept t u ∧
        u.busy = false ∧ u.done = true ∧ u.cfg = s.cfg ∧ u.cmdl = s.cmdl ∧ u.lastCmd = s.lastCmd

/-- R92: the host cannot see the operands or results of the pending command: two states that differ only in registers and
results answer every turn of the host alike while `BUSY = 1`, and go on differing only there. -/
def Obligations.PendingCommandIsNotSeen : Prop :=
  ∀ (s : State) (x : Vector Poly 8) (res : Vector Poly 16) (v : BitVec 16) (tr : Transaction) (rest : List Turn),
    s.busy = true → s.turns = .host tr :: rest → (∀ t, step s = .next t → t.busy = true) →
      (∃ f, step s = .fault f ∧ step { s with x := x, res := res, resValid := v } = .fault f) ∨
        ∃ t, step s = .next t ∧
          step { s with x := x, res := res, resValid := v } = .next { t with x := x, res := res, resValid := v }

/-- R36 and R299: no command hangs: whatever answered turns are still to come, within one step more than their number the
command is pending no longer; if no reset is among them it has completed. That the engine's step is next once the schedule is
empty is the model's form of weak fairness (log entry 2). -/
def Obligations.PendingCommandCompletes : Prop :=
  ∀ s : State, s.busy = true → (∀ t ∈ s.turns, t.answered s.cfg) →
    ∃ k t, k ≤ s.turns.length + 1 ∧ core.run k s = .next t ∧ t.busy = false ∧
      ((∀ u ∈ s.turns, u = .engine ∨ u.hostOnly s.cfg) → t.done = true)

/-! ## The assembler -/

/-- R130: each pseudo-instruction's expansion, and what its commands leave in `pd`. -/
def Obligations.PseudoInstructionsDoAsTheyExpand : Prop :=
  ∀ (s : State) (pd ps : RegIdx),
    (Pseudo.expand (.pclr pd) = [.pli pd 0] ∧ ∃ t, exec (.pli pd 0) s = .next t ∧ t.readReg pd = 0) ∧
    (Pseudo.expand (.pone pd) = [.pli pd 1] ∧ ∃ t, exec (.pli pd 1) s = .next t ∧ t.readReg pd = 1) ∧
    (∀ n, Pseudo.expand (.pxpow pd n) = [.pli pd 1, .pshl pd pd n] ∧ ∃ t u, exec (.pli pd 1) s = .next t ∧
      exec (.pshl pd pd n) t = .next u ∧ (n < s.cfg.polyW → u.readReg pd = 2 ^ n ∧ ErrorsKept s u) ∧
        (s.cfg.polyW ≤ n → ErrorRecorded 0x03#8 s.cmdl s u)) ∧
    (Pseudo.expand (.pmask32 pd ps) = [.pmask pd ps 32] ∧ ∃ t, exec (.pmask pd ps 32) s = .next t ∧
      t.readReg pd = s.readReg ps % 2 ^ 32) ∧
    (Pseudo.expand (.prev32 pd ps) = [.prev pd ps 32] ∧ (32 ≤ s.cfg.polyW → ∃ t, exec (.prev pd ps 32) s = .next t ∧
      t.readReg pd = (BitVec.ofNat 32 (s.readReg ps)).reverse.toNat))

/-- R129: an operand out of range is refused at assembly and never reaches `CMD`. -/
def Obligations.AssemblerRefusesOutOfRange : Prop :=
  ∀ i : Instr, (assembleLine (.instr i) = none ↔ i.wf = false) ∧
    ∀ l, assembleLine (.instr i) = some l → ∃ w, l = [w] ∧ decode w = .cmd i
end

