-- ==== Sys2Proof/Laws/Gf2.lean ====
section
/-! SUPPORT. The small lemmas of the pure functions' definitions: the size of a value, the mask, the slots of the derived
table. -/

namespace Sys2Proof.Machine

theorem bitlen_zero : bitlen 0 = 0 := rfl

theorem bitlen_of_ne {v : Poly} (h : v ≠ 0) : bitlen v = deg v + 1 := by simp [bitlen, h]

/-- A value fits in `n` bits when it is below `2^n` (R10). -/
theorem bitlen_le_iff {v : Poly} {n : Nat} : bitlen v ≤ n ↔ v < 2 ^ n := by
  unfold bitlen deg
  split
  · subst_vars
    simp
  · rw [Nat.succ_le_iff, Nat.log2_lt ‹_›]

theorem mask_eq_mod (a : Poly) (w : Nat) : mask a w = a % 2 ^ w := by simp [mask, Nat.and_two_pow_sub_one_eq_mod]

theorem divPass_of_ended {b : Poly} {d : DivState} (h : ¬(d.rem ≠ 0 ∧ deg b ≤ deg d.rem)) : divPass b d = d := by
  rw [divPass, if_neg h]

/-! ### The slots of the derived table (R218) -/

theorem deriveTable_slot0 (p : Poly) : (deriveTable p)[(0 : SlotIdx)] = p := by
  unfold deriveTable foldN; simp only [Fin.getElem_fin]; simp
theorem deriveTable_slot1 (p : Poly) : (deriveTable p)[(1 : SlotIdx)] = reflectedGenerator p := by
  unfold deriveTable foldN; simp only [Fin.getElem_fin]; simp
theorem deriveTable_slot2 (p : Poly) : (deriveTable p)[(2 : SlotIdx)] = barrett p := by
  unfold deriveTable foldN; simp only [Fin.getElem_fin]; simp
theorem deriveTable_slot3 (p : Poly) : (deriveTable p)[(3 : SlotIdx)] = barrettReflected p := by
  unfold deriveTable foldN; simp only [Fin.getElem_fin]; simp
theorem deriveTable_slot4 (p : Poly) : (deriveTable p)[(4 : SlotIdx)] = powerRemainder 64 p := by
  unfold deriveTable foldN; simp only [Fin.getElem_fin]; simp
theorem deriveTable_slot5 (p : Poly) : (deriveTable p)[(5 : SlotIdx)] = foldConstant 64 p := by
  unfold deriveTable foldN; simp only [Fin.getElem_fin]; simp
theorem deriveTable_slot6 (p : Poly) : (deriveTable p)[(6 : SlotIdx)] = foldConstant 96 p := by
  unfold deriveTable foldN; simp only [Fin.getElem_fin]; simp
theorem deriveTable_slot7 (p : Poly) : (deriveTable p)[(7 : SlotIdx)] = foldConstant 128 p := by
  unfold deriveTable foldN; simp only [Fin.getElem_fin]; simp
theorem deriveTable_slot8 (p : Poly) : (deriveTable p)[(8 : SlotIdx)] = foldConstant 144 p := by
  unfold deriveTable foldN; simp only [Fin.getElem_fin]; simp
theorem deriveTable_slot9 (p : Poly) : (deriveTable p)[(9 : SlotIdx)] = foldConstant 160 p := by
  unfold deriveTable foldN; simp only [Fin.getElem_fin]; simp
theorem deriveTable_slot10 (p : Poly) : (deriveTable p)[(10 : SlotIdx)] = foldConstant 2048 p := by
  unfold deriveTable foldN; simp only [Fin.getElem_fin]; simp
theorem deriveTable_slot11 (p : Poly) : (deriveTable p)[(11 : SlotIdx)] = foldConstant 2080 p := by
  unfold deriveTable foldN; simp only [Fin.getElem_fin]; simp
theorem deriveTable_slot12 (p : Poly) : (deriveTable p)[(12 : SlotIdx)] = foldConstant 4096 p := by
  unfold deriveTable foldN; simp only [Fin.getElem_fin]; simp
theorem deriveTable_slot13 (p : Poly) : (deriveTable p)[(13 : SlotIdx)] = foldConstant 4128 p := by
  unfold deriveTable foldN; simp only [Fin.getElem_fin]; simp
theorem deriveTable_slot14 (p : Poly) : (deriveTable p)[(14 : SlotIdx)] = foldConstant 8192 p := by
  unfold deriveTable foldN; simp only [Fin.getElem_fin]; simp
theorem deriveTable_slot15 (p : Poly) : (deriveTable p)[(15 : SlotIdx)] = foldConstant 8224 p := by
  unfold deriveTable foldN; simp only [Fin.getElem_fin]; simp

end Sys2Proof.Machine
end

