-- ==== Sys2Proof/Laws/State.lean ====
section
/-! SUPPORT. One lemma per field per update of the state, true by `rfl`, so that no later proof unfolds a record update; for
`recordError`, whose two cases write different fields, the lemmas of each case. -/

namespace Sys2Proof.Machine

/-! ### State.writeReg -/

@[simp] theorem State.writeReg_cfg (s : State) (i : RegIdx) (v : Poly) : (s.writeReg i v).cfg = s.cfg := rfl
@[simp] theorem State.writeReg_x (s : State) (i : RegIdx) (v : Poly) : (s.writeReg i v).x = s.x.set i v := rfl
@[simp] theorem State.writeReg_res (s : State) (i : RegIdx) (v : Poly) : (s.writeReg i v).res = s.res := rfl
@[simp] theorem State.writeReg_resValid (s : State) (i : RegIdx) (v : Poly) : (s.writeReg i v).resValid = s.resValid := rfl
@[simp] theorem State.writeReg_doneIE (s : State) (i : RegIdx) (v : Poly) : (s.writeReg i v).doneIE = s.doneIE := rfl
@[simp] theorem State.writeReg_errIE (s : State) (i : RegIdx) (v : Poly) : (s.writeReg i v).errIE = s.errIE := rfl
@[simp] theorem State.writeReg_busy (s : State) (i : RegIdx) (v : Poly) : (s.writeReg i v).busy = s.busy := rfl
@[simp] theorem State.writeReg_done (s : State) (i : RegIdx) (v : Poly) : (s.writeReg i v).done = s.done := rfl
@[simp] theorem State.writeReg_err (s : State) (i : RegIdx) (v : Poly) : (s.writeReg i v).err = s.err := rfl
@[simp] theorem State.writeReg_errOvf (s : State) (i : RegIdx) (v : Poly) : (s.writeReg i v).errOvf = s.errOvf := rfl
@[simp] theorem State.writeReg_errCode (s : State) (i : RegIdx) (v : Poly) : (s.writeReg i v).errCode = s.errCode := rfl
@[simp] theorem State.writeReg_errInfo (s : State) (i : RegIdx) (v : Poly) : (s.writeReg i v).errInfo = s.errInfo := rfl
@[simp] theorem State.writeReg_cmdl (s : State) (i : RegIdx) (v : Poly) : (s.writeReg i v).cmdl = s.cmdl := rfl
@[simp] theorem State.writeReg_lastCmd (s : State) (i : RegIdx) (v : Poly) : (s.writeReg i v).lastCmd = s.lastCmd := rfl
@[simp] theorem State.writeReg_dselTarget (s : State) (i : RegIdx) (v : Poly) : (s.writeReg i v).dselTarget = s.dselTarget := rfl
@[simp] theorem State.writeReg_dselLimb (s : State) (i : RegIdx) (v : Poly) : (s.writeReg i v).dselLimb = s.dselLimb := rfl
@[simp] theorem State.writeReg_dselAinc (s : State) (i : RegIdx) (v : Poly) : (s.writeReg i v).dselAinc = s.dselAinc := rfl
@[simp] theorem State.writeReg_turns (s : State) (i : RegIdx) (v : Poly) : (s.writeReg i v).turns = s.turns := rfl
@[simp] theorem State.writeReg_reply (s : State) (i : RegIdx) (v : Poly) : (s.writeReg i v).reply = s.reply := rfl
@[simp] theorem State.writeReg_readSlot (s : State) (i : RegIdx) (v : Poly) (k : SlotIdx) : (s.writeReg i v).readSlot k = s.readSlot k := rfl

/-! ### State.writeTable -/

@[simp] theorem State.writeTable_cfg (s : State) (t : Vector Poly 16) (b : BitVec 16) : (s.writeTable t b).cfg = s.cfg := rfl
@[simp] theorem State.writeTable_x (s : State) (t : Vector Poly 16) (b : BitVec 16) : (s.writeTable t b).x = s.x := rfl
@[simp] theorem State.writeTable_res (s : State) (t : Vector Poly 16) (b : BitVec 16) : (s.writeTable t b).res = t := rfl
@[simp] theorem State.writeTable_resValid (s : State) (t : Vector Poly 16) (b : BitVec 16) : (s.writeTable t b).resValid = b := rfl
@[simp] theorem State.writeTable_doneIE (s : State) (t : Vector Poly 16) (b : BitVec 16) : (s.writeTable t b).doneIE = s.doneIE := rfl
@[simp] theorem State.writeTable_errIE (s : State) (t : Vector Poly 16) (b : BitVec 16) : (s.writeTable t b).errIE = s.errIE := rfl
@[simp] theorem State.writeTable_busy (s : State) (t : Vector Poly 16) (b : BitVec 16) : (s.writeTable t b).busy = s.busy := rfl
@[simp] theorem State.writeTable_done (s : State) (t : Vector Poly 16) (b : BitVec 16) : (s.writeTable t b).done = s.done := rfl
@[simp] theorem State.writeTable_err (s : State) (t : Vector Poly 16) (b : BitVec 16) : (s.writeTable t b).err = s.err := rfl
@[simp] theorem State.writeTable_errOvf (s : State) (t : Vector Poly 16) (b : BitVec 16) : (s.writeTable t b).errOvf = s.errOvf := rfl
@[simp] theorem State.writeTable_errCode (s : State) (t : Vector Poly 16) (b : BitVec 16) : (s.writeTable t b).errCode = s.errCode := rfl
@[simp] theorem State.writeTable_errInfo (s : State) (t : Vector Poly 16) (b : BitVec 16) : (s.writeTable t b).errInfo = s.errInfo := rfl
@[simp] theorem State.writeTable_cmdl (s : State) (t : Vector Poly 16) (b : BitVec 16) : (s.writeTable t b).cmdl = s.cmdl := rfl
@[simp] theorem State.writeTable_lastCmd (s : State) (t : Vector Poly 16) (b : BitVec 16) : (s.writeTable t b).lastCmd = s.lastCmd := rfl
@[simp] theorem State.writeTable_dselTarget (s : State) (t : Vector Poly 16) (b : BitVec 16) : (s.writeTable t b).dselTarget = s.dselTarget := rfl
@[simp] theorem State.writeTable_dselLimb (s : State) (t : Vector Poly 16) (b : BitVec 16) : (s.writeTable t b).dselLimb = s.dselLimb := rfl
@[simp] theorem State.writeTable_dselAinc (s : State) (t : Vector Poly 16) (b : BitVec 16) : (s.writeTable t b).dselAinc = s.dselAinc := rfl
@[simp] theorem State.writeTable_turns (s : State) (t : Vector Poly 16) (b : BitVec 16) : (s.writeTable t b).turns = s.turns := rfl
@[simp] theorem State.writeTable_reply (s : State) (t : Vector Poly 16) (b : BitVec 16) : (s.writeTable t b).reply = s.reply := rfl
@[simp] theorem State.writeTable_readReg (s : State) (t : Vector Poly 16) (b : BitVec 16) (k : RegIdx) : (s.writeTable t b).readReg k = s.readReg k := rfl

/-! ### complete -/

@[simp] theorem complete_cfg (s : State) : (complete s).cfg = s.cfg := rfl
@[simp] theorem complete_x (s : State) : (complete s).x = s.x := rfl
@[simp] theorem complete_res (s : State) : (complete s).res = s.res := rfl
@[simp] theorem complete_resValid (s : State) : (complete s).resValid = s.resValid := rfl
@[simp] theorem complete_doneIE (s : State) : (complete s).doneIE = s.doneIE := rfl
@[simp] theorem complete_errIE (s : State) : (complete s).errIE = s.errIE := rfl
@[simp] theorem complete_busy (s : State) : (complete s).busy = false := rfl
@[simp] theorem complete_done (s : State) : (complete s).done = true := rfl
@[simp] theorem complete_err (s : State) : (complete s).err = s.err := rfl
@[simp] theorem complete_errOvf (s : State) : (complete s).errOvf = s.errOvf := rfl
@[simp] theorem complete_errCode (s : State) : (complete s).errCode = s.errCode := rfl
@[simp] theorem complete_errInfo (s : State) : (complete s).errInfo = s.errInfo := rfl
@[simp] theorem complete_cmdl (s : State) : (complete s).cmdl = s.cmdl := rfl
@[simp] theorem complete_lastCmd (s : State) : (complete s).lastCmd = s.lastCmd := rfl
@[simp] theorem complete_dselTarget (s : State) : (complete s).dselTarget = s.dselTarget := rfl
@[simp] theorem complete_dselLimb (s : State) : (complete s).dselLimb = s.dselLimb := rfl
@[simp] theorem complete_dselAinc (s : State) : (complete s).dselAinc = s.dselAinc := rfl
@[simp] theorem complete_turns (s : State) : (complete s).turns = s.turns := rfl
@[simp] theorem complete_reply (s : State) : (complete s).reply = s.reply := rfl
@[simp] theorem complete_readReg (s : State) (k : RegIdx) : (complete s).readReg k = s.readReg k := rfl
@[simp] theorem complete_readSlot (s : State) (k : SlotIdx) : (complete s).readSlot k = s.readSlot k := rfl

/-! ### acceptCommand -/

@[simp] theorem acceptCommand_cfg (w : Word) (s : State) : (acceptCommand w s).cfg = s.cfg := rfl
@[simp] theorem acceptCommand_x (w : Word) (s : State) : (acceptCommand w s).x = s.x := rfl
@[simp] theorem acceptCommand_res (w : Word) (s : State) : (acceptCommand w s).res = s.res := rfl
@[simp] theorem acceptCommand_resValid (w : Word) (s : State) : (acceptCommand w s).resValid = s.resValid := rfl
@[simp] theorem acceptCommand_doneIE (w : Word) (s : State) : (acceptCommand w s).doneIE = s.doneIE := rfl
@[simp] theorem acceptCommand_errIE (w : Word) (s : State) : (acceptCommand w s).errIE = s.errIE := rfl
@[simp] theorem acceptCommand_busy (w : Word) (s : State) : (acceptCommand w s).busy = true := rfl
@[simp] theorem acceptCommand_done (w : Word) (s : State) : (acceptCommand w s).done = false := rfl
@[simp] theorem acceptCommand_err (w : Word) (s : State) : (acceptCommand w s).err = s.err := rfl
@[simp] theorem acceptCommand_errOvf (w : Word) (s : State) : (acceptCommand w s).errOvf = s.errOvf := rfl
@[simp] theorem acceptCommand_errCode (w : Word) (s : State) : (acceptCommand w s).errCode = s.errCode := rfl
@[simp] theorem acceptCommand_errInfo (w : Word) (s : State) : (acceptCommand w s).errInfo = s.errInfo := rfl
@[simp] theorem acceptCommand_cmdl (w : Word) (s : State) : (acceptCommand w s).cmdl = w := rfl
@[simp] theorem acceptCommand_lastCmd (w : Word) (s : State) : (acceptCommand w s).lastCmd = w := rfl
@[simp] theorem acceptCommand_dselTarget (w : Word) (s : State) : (acceptCommand w s).dselTarget = s.dselTarget := rfl
@[simp] theorem acceptCommand_dselLimb (w : Word) (s : State) : (acceptCommand w s).dselLimb = s.dselLimb := rfl
@[simp] theorem acceptCommand_dselAinc (w : Word) (s : State) : (acceptCommand w s).dselAinc = s.dselAinc := rfl
@[simp] theorem acceptCommand_turns (w : Word) (s : State) : (acceptCommand w s).turns = s.turns := rfl
@[simp] theorem acceptCommand_reply (w : Word) (s : State) : (acceptCommand w s).reply = s.reply := rfl
@[simp] theorem acceptCommand_readReg (w : Word) (s : State) (k : RegIdx) : (acceptCommand w s).readReg k = s.readReg k := rfl
@[simp] theorem acceptCommand_readSlot (w : Word) (s : State) (k : SlotIdx) : (acceptCommand w s).readSlot k = s.readSlot k := rfl

/-! ### blockReset -/

@[simp] theorem blockReset_cfg (s : State) : (blockReset s).cfg = s.cfg := rfl
@[simp] theorem blockReset_x (s : State) : (blockReset s).x = Vector.replicate 8 0 := rfl
@[simp] theorem blockReset_res (s : State) : (blockReset s).res = Vector.replicate 16 0 := rfl
@[simp] theorem blockReset_resValid (s : State) : (blockReset s).resValid = 0#16 := rfl
@[simp] theorem blockReset_doneIE (s : State) : (blockReset s).doneIE = false := rfl
@[simp] theorem blockReset_errIE (s : State) : (blockReset s).errIE = false := rfl
@[simp] theorem blockReset_busy (s : State) : (blockReset s).busy = false := rfl
@[simp] theorem blockReset_done (s : State) : (blockReset s).done = false := rfl
@[simp] theorem blockReset_err (s : State) : (blockReset s).err = false := rfl
@[simp] theorem blockReset_errOvf (s : State) : (blockReset s).errOvf = false := rfl
@[simp] theorem blockReset_errCode (s : State) : (blockReset s).errCode = 0#8 := rfl
@[simp] theorem blockReset_errInfo (s : State) : (blockReset s).errInfo = 0#32 := rfl
@[simp] theorem blockReset_cmdl (s : State) : (blockReset s).cmdl = 0#32 := rfl
@[simp] theorem blockReset_lastCmd (s : State) : (blockReset s).lastCmd = 0#32 := rfl
@[simp] theorem blockReset_dselTarget (s : State) : (blockReset s).dselTarget = 0#8 := rfl
@[simp] theorem blockReset_dselLimb (s : State) : (blockReset s).dselLimb = 0#16 := rfl
@[simp] theorem blockReset_dselAinc (s : State) : (blockReset s).dselAinc = false := rfl
@[simp] theorem blockReset_turns (s : State) : (blockReset s).turns = s.turns := rfl
@[simp] theorem blockReset_reply (s : State) : (blockReset s).reply = s.reply := rfl

/-! ### statusWrite -/

@[simp] theorem statusWrite_cfg (d : Word) (s : State) : (statusWrite d s).cfg = s.cfg := rfl
@[simp] theorem statusWrite_x (d : Word) (s : State) : (statusWrite d s).x = s.x := rfl
@[simp] theorem statusWrite_res (d : Word) (s : State) : (statusWrite d s).res = s.res := rfl
@[simp] theorem statusWrite_resValid (d : Word) (s : State) : (statusWrite d s).resValid = s.resValid := rfl
@[simp] theorem statusWrite_doneIE (d : Word) (s : State) : (statusWrite d s).doneIE = s.doneIE := rfl
@[simp] theorem statusWrite_errIE (d : Word) (s : State) : (statusWrite d s).errIE = s.errIE := rfl
@[simp] theorem statusWrite_busy (d : Word) (s : State) : (statusWrite d s).busy = s.busy := rfl
@[simp] theorem statusWrite_done (d : Word) (s : State) : (statusWrite d s).done = if d.getLsbD 1 then false else s.done := rfl
@[simp] theorem statusWrite_err (d : Word) (s : State) : (statusWrite d s).err = if d.getLsbD 2 then false else s.err := rfl
@[simp] theorem statusWrite_errOvf (d : Word) (s : State) : (statusWrite d s).errOvf = if d.getLsbD 3 then false else s.errOvf := rfl
@[simp] theorem statusWrite_errCode (d : Word) (s : State) : (statusWrite d s).errCode = if d.getLsbD 2 then 0#8 else s.errCode := rfl
@[simp] theorem statusWrite_errInfo (d : Word) (s : State) : (statusWrite d s).errInfo = if d.getLsbD 2 then 0#32 else s.errInfo := rfl
@[simp] theorem statusWrite_cmdl (d : Word) (s : State) : (statusWrite d s).cmdl = s.cmdl := rfl
@[simp] theorem statusWrite_lastCmd (d : Word) (s : State) : (statusWrite d s).lastCmd = s.lastCmd := rfl
@[simp] theorem statusWrite_dselTarget (d : Word) (s : State) : (statusWrite d s).dselTarget = s.dselTarget := rfl
@[simp] theorem statusWrite_dselLimb (d : Word) (s : State) : (statusWrite d s).dselLimb = s.dselLimb := rfl
@[simp] theorem statusWrite_dselAinc (d : Word) (s : State) : (statusWrite d s).dselAinc = s.dselAinc := rfl
@[simp] theorem statusWrite_turns (d : Word) (s : State) : (statusWrite d s).turns = s.turns := rfl
@[simp] theorem statusWrite_reply (d : Word) (s : State) : (statusWrite d s).reply = s.reply := rfl
@[simp] theorem statusWrite_readReg (d : Word) (s : State) (k : RegIdx) : (statusWrite d s).readReg k = s.readReg k := rfl
@[simp] theorem statusWrite_readSlot (d : Word) (s : State) (k : SlotIdx) : (statusWrite d s).readSlot k = s.readSlot k := rfl

/-! ### dselWrite -/

@[simp] theorem dselWrite_cfg (d : Word) (s : State) : (dselWrite d s).cfg = s.cfg := rfl
@[simp] theorem dselWrite_x (d : Word) (s : State) : (dselWrite d s).x = s.x := rfl
@[simp] theorem dselWrite_res (d : Word) (s : State) : (dselWrite d s).res = s.res := rfl
@[simp] theorem dselWrite_resValid (d : Word) (s : State) : (dselWrite d s).resValid = s.resValid := rfl
@[simp] theorem dselWrite_doneIE (d : Word) (s : State) : (dselWrite d s).doneIE = s.doneIE := rfl
@[simp] theorem dselWrite_errIE (d : Word) (s : State) : (dselWrite d s).errIE = s.errIE := rfl
@[simp] theorem dselWrite_busy (d : Word) (s : State) : (dselWrite d s).busy = s.busy := rfl
@[simp] theorem dselWrite_done (d : Word) (s : State) : (dselWrite d s).done = s.done := rfl
@[simp] theorem dselWrite_err (d : Word) (s : State) : (dselWrite d s).err = s.err := rfl
@[simp] theorem dselWrite_errOvf (d : Word) (s : State) : (dselWrite d s).errOvf = s.errOvf := rfl
@[simp] theorem dselWrite_errCode (d : Word) (s : State) : (dselWrite d s).errCode = s.errCode := rfl
@[simp] theorem dselWrite_errInfo (d : Word) (s : State) : (dselWrite d s).errInfo = s.errInfo := rfl
@[simp] theorem dselWrite_cmdl (d : Word) (s : State) : (dselWrite d s).cmdl = s.cmdl := rfl
@[simp] theorem dselWrite_lastCmd (d : Word) (s : State) : (dselWrite d s).lastCmd = s.lastCmd := rfl
@[simp] theorem dselWrite_dselTarget (d : Word) (s : State) : (dselWrite d s).dselTarget = d.extractLsb' 0 8 := rfl
@[simp] theorem dselWrite_dselLimb (d : Word) (s : State) : (dselWrite d s).dselLimb = d.extractLsb' 8 16 := rfl
@[simp] theorem dselWrite_dselAinc (d : Word) (s : State) : (dselWrite d s).dselAinc = d.getLsbD 31 := rfl
@[simp] theorem dselWrite_turns (d : Word) (s : State) : (dselWrite d s).turns = s.turns := rfl
@[simp] theorem dselWrite_reply (d : Word) (s : State) : (dselWrite d s).reply = s.reply := rfl
@[simp] theorem dselWrite_readReg (d : Word) (s : State) (k : RegIdx) : (dselWrite d s).readReg k = s.readReg k := rfl
@[simp] theorem dselWrite_readSlot (d : Word) (s : State) (k : SlotIdx) : (dselWrite d s).readSlot k = s.readSlot k := rfl

/-! ### bumpLimb -/

@[simp] theorem bumpLimb_cfg (s : State) : (bumpLimb s).cfg = s.cfg := rfl
@[simp] theorem bumpLimb_x (s : State) : (bumpLimb s).x = s.x := rfl
@[simp] theorem bumpLimb_res (s : State) : (bumpLimb s).res = s.res := rfl
@[simp] theorem bumpLimb_resValid (s : State) : (bumpLimb s).resValid = s.resValid := rfl
@[simp] theorem bumpLimb_doneIE (s : State) : (bumpLimb s).doneIE = s.doneIE := rfl
@[simp] theorem bumpLimb_errIE (s : State) : (bumpLimb s).errIE = s.errIE := rfl
@[simp] theorem bumpLimb_busy (s : State) : (bumpLimb s).busy = s.busy := rfl
@[simp] theorem bumpLimb_done (s : State) : (bumpLimb s).done = s.done := rfl
@[simp] theorem bumpLimb_err (s : State) : (bumpLimb s).err = s.err := rfl
@[simp] theorem bumpLimb_errOvf (s : State) : (bumpLimb s).errOvf = s.errOvf := rfl
@[simp] theorem bumpLimb_errCode (s : State) : (bumpLimb s).errCode = s.errCode := rfl
@[simp] theorem bumpLimb_errInfo (s : State) : (bumpLimb s).errInfo = s.errInfo := rfl
@[simp] theorem bumpLimb_cmdl (s : State) : (bumpLimb s).cmdl = s.cmdl := rfl
@[simp] theorem bumpLimb_lastCmd (s : State) : (bumpLimb s).lastCmd = s.lastCmd := rfl
@[simp] theorem bumpLimb_dselTarget (s : State) : (bumpLimb s).dselTarget = s.dselTarget := rfl
@[simp] theorem bumpLimb_dselLimb (s : State) : (bumpLimb s).dselLimb = if s.dselAinc then s.dselLimb + 1#16 else s.dselLimb := rfl
@[simp] theorem bumpLimb_dselAinc (s : State) : (bumpLimb s).dselAinc = s.dselAinc := rfl
@[simp] theorem bumpLimb_turns (s : State) : (bumpLimb s).turns = s.turns := rfl
@[simp] theorem bumpLimb_reply (s : State) : (bumpLimb s).reply = s.reply := rfl
@[simp] theorem bumpLimb_readReg (s : State) (k : RegIdx) : (bumpLimb s).readReg k = s.readReg k := rfl
@[simp] theorem bumpLimb_readSlot (s : State) (k : SlotIdx) : (bumpLimb s).readSlot k = s.readSlot k := rfl

/-! ### State.withTurns -/

@[simp] theorem State.withTurns_cfg (s : State) (ts : List Turn) : (s.withTurns ts).cfg = s.cfg := rfl
@[simp] theorem State.withTurns_x (s : State) (ts : List Turn) : (s.withTurns ts).x = s.x := rfl
@[simp] theorem State.withTurns_res (s : State) (ts : List Turn) : (s.withTurns ts).res = s.res := rfl
@[simp] theorem State.withTurns_resValid (s : State) (ts : List Turn) : (s.withTurns ts).resValid = s.resValid := rfl
@[simp] theorem State.withTurns_doneIE (s : State) (ts : List Turn) : (s.withTurns ts).doneIE = s.doneIE := rfl
@[simp] theorem State.withTurns_errIE (s : State) (ts : List Turn) : (s.withTurns ts).errIE = s.errIE := rfl
@[simp] theorem State.withTurns_busy (s : State) (ts : List Turn) : (s.withTurns ts).busy = s.busy := rfl
@[simp] theorem State.withTurns_done (s : State) (ts : List Turn) : (s.withTurns ts).done = s.done := rfl
@[simp] theorem State.withTurns_err (s : State) (ts : List Turn) : (s.withTurns ts).err = s.err := rfl
@[simp] theorem State.withTurns_errOvf (s : State) (ts : List Turn) : (s.withTurns ts).errOvf = s.errOvf := rfl
@[simp] theorem State.withTurns_errCode (s : State) (ts : List Turn) : (s.withTurns ts).errCode = s.errCode := rfl
@[simp] theorem State.withTurns_errInfo (s : State) (ts : List Turn) : (s.withTurns ts).errInfo = s.errInfo := rfl
@[simp] theorem State.withTurns_cmdl (s : State) (ts : List Turn) : (s.withTurns ts).cmdl = s.cmdl := rfl
@[simp] theorem State.withTurns_lastCmd (s : State) (ts : List Turn) : (s.withTurns ts).lastCmd = s.lastCmd := rfl
@[simp] theorem State.withTurns_dselTarget (s : State) (ts : List Turn) : (s.withTurns ts).dselTarget = s.dselTarget := rfl
@[simp] theorem State.withTurns_dselLimb (s : State) (ts : List Turn) : (s.withTurns ts).dselLimb = s.dselLimb := rfl
@[simp] theorem State.withTurns_dselAinc (s : State) (ts : List Turn) : (s.withTurns ts).dselAinc = s.dselAinc := rfl
@[simp] theorem State.withTurns_turns (s : State) (ts : List Turn) : (s.withTurns ts).turns = ts := rfl
@[simp] theorem State.withTurns_reply (s : State) (ts : List Turn) : (s.withTurns ts).reply = s.reply := rfl
@[simp] theorem State.withTurns_readReg (s : State) (ts : List Turn) (k : RegIdx) : (s.withTurns ts).readReg k = s.readReg k := rfl
@[simp] theorem State.withTurns_readSlot (s : State) (ts : List Turn) (k : SlotIdx) : (s.withTurns ts).readSlot k = s.readSlot k := rfl

/-! ### State.answer -/

@[simp] theorem State.answer_cfg (s : State) (r : Response) : (s.answer r).cfg = s.cfg := rfl
@[simp] theorem State.answer_x (s : State) (r : Response) : (s.answer r).x = s.x := rfl
@[simp] theorem State.answer_res (s : State) (r : Response) : (s.answer r).res = s.res := rfl
@[simp] theorem State.answer_resValid (s : State) (r : Response) : (s.answer r).resValid = s.resValid := rfl
@[simp] theorem State.answer_doneIE (s : State) (r : Response) : (s.answer r).doneIE = s.doneIE := rfl
@[simp] theorem State.answer_errIE (s : State) (r : Response) : (s.answer r).errIE = s.errIE := rfl
@[simp] theorem State.answer_busy (s : State) (r : Response) : (s.answer r).busy = s.busy := rfl
@[simp] theorem State.answer_done (s : State) (r : Response) : (s.answer r).done = s.done := rfl
@[simp] theorem State.answer_err (s : State) (r : Response) : (s.answer r).err = s.err := rfl
@[simp] theorem State.answer_errOvf (s : State) (r : Response) : (s.answer r).errOvf = s.errOvf := rfl
@[simp] theorem State.answer_errCode (s : State) (r : Response) : (s.answer r).errCode = s.errCode := rfl
@[simp] theorem State.answer_errInfo (s : State) (r : Response) : (s.answer r).errInfo = s.errInfo := rfl
@[simp] theorem State.answer_cmdl (s : State) (r : Response) : (s.answer r).cmdl = s.cmdl := rfl
@[simp] theorem State.answer_lastCmd (s : State) (r : Response) : (s.answer r).lastCmd = s.lastCmd := rfl
@[simp] theorem State.answer_dselTarget (s : State) (r : Response) : (s.answer r).dselTarget = s.dselTarget := rfl
@[simp] theorem State.answer_dselLimb (s : State) (r : Response) : (s.answer r).dselLimb = s.dselLimb := rfl
@[simp] theorem State.answer_dselAinc (s : State) (r : Response) : (s.answer r).dselAinc = s.dselAinc := rfl
@[simp] theorem State.answer_turns (s : State) (r : Response) : (s.answer r).turns = s.turns := rfl
@[simp] theorem State.answer_reply (s : State) (r : Response) : (s.answer r).reply = some r := rfl
@[simp] theorem State.answer_readReg (s : State) (r : Response) (k : RegIdx) : (s.answer r).readReg k = s.readReg k := rfl
@[simp] theorem State.answer_readSlot (s : State) (r : Response) (k : SlotIdx) : (s.answer r).readSlot k = s.readSlot k := rfl

/-! ### State.popTurn -/

@[simp] theorem State.popTurn_cfg (s : State) : s.popTurn.cfg = s.cfg := rfl
@[simp] theorem State.popTurn_x (s : State) : s.popTurn.x = s.x := rfl
@[simp] theorem State.popTurn_res (s : State) : s.popTurn.res = s.res := rfl
@[simp] theorem State.popTurn_resValid (s : State) : s.popTurn.resValid = s.resValid := rfl
@[simp] theorem State.popTurn_doneIE (s : State) : s.popTurn.doneIE = s.doneIE := rfl
@[simp] theorem State.popTurn_errIE (s : State) : s.popTurn.errIE = s.errIE := rfl
@[simp] theorem State.popTurn_busy (s : State) : s.popTurn.busy = s.busy := rfl
@[simp] theorem State.popTurn_done (s : State) : s.popTurn.done = s.done := rfl
@[simp] theorem State.popTurn_err (s : State) : s.popTurn.err = s.err := rfl
@[simp] theorem State.popTurn_errOvf (s : State) : s.popTurn.errOvf = s.errOvf := rfl
@[simp] theorem State.popTurn_errCode (s : State) : s.popTurn.errCode = s.errCode := rfl
@[simp] theorem State.popTurn_errInfo (s : State) : s.popTurn.errInfo = s.errInfo := rfl
@[simp] theorem State.popTurn_cmdl (s : State) : s.popTurn.cmdl = s.cmdl := rfl
@[simp] theorem State.popTurn_lastCmd (s : State) : s.popTurn.lastCmd = s.lastCmd := rfl
@[simp] theorem State.popTurn_dselTarget (s : State) : s.popTurn.dselTarget = s.dselTarget := rfl
@[simp] theorem State.popTurn_dselLimb (s : State) : s.popTurn.dselLimb = s.dselLimb := rfl
@[simp] theorem State.popTurn_dselAinc (s : State) : s.popTurn.dselAinc = s.dselAinc := rfl
@[simp] theorem State.popTurn_turns (s : State) : s.popTurn.turns = s.turns.tail := rfl
@[simp] theorem State.popTurn_reply (s : State) : s.popTurn.reply = s.reply := rfl
@[simp] theorem State.popTurn_readReg (s : State) (k : RegIdx) : s.popTurn.readReg k = s.readReg k := rfl
@[simp] theorem State.popTurn_readSlot (s : State) (k : SlotIdx) : s.popTurn.readSlot k = s.readSlot k := rfl

/-! ### recordError (R256) -/

@[simp] theorem recordError_cfg (c : ErrCode) (w : Word) (s : State) : (recordError c w s).cfg = s.cfg := by
  unfold recordError; split <;> rfl
@[simp] theorem recordError_x (c : ErrCode) (w : Word) (s : State) : (recordError c w s).x = s.x := by
  unfold recordError; split <;> rfl
@[simp] theorem recordError_res (c : ErrCode) (w : Word) (s : State) : (recordError c w s).res = s.res := by
  unfold recordError; split <;> rfl
@[simp] theorem recordError_resValid (c : ErrCode) (w : Word) (s : State) : (recordError c w s).resValid = s.resValid := by
  unfold recordError; split <;> rfl
@[simp] theorem recordError_doneIE (c : ErrCode) (w : Word) (s : State) : (recordError c w s).doneIE = s.doneIE := by
  unfold recordError; split <;> rfl
@[simp] theorem recordError_errIE (c : ErrCode) (w : Word) (s : State) : (recordError c w s).errIE = s.errIE := by
  unfold recordError; split <;> rfl
@[simp] theorem recordError_busy (c : ErrCode) (w : Word) (s : State) : (recordError c w s).busy = s.busy := by
  unfold recordError; split <;> rfl
@[simp] theorem recordError_done (c : ErrCode) (w : Word) (s : State) : (recordError c w s).done = s.done := by
  unfold recordError; split <;> rfl
@[simp] theorem recordError_cmdl (c : ErrCode) (w : Word) (s : State) : (recordError c w s).cmdl = s.cmdl := by
  unfold recordError; split <;> rfl
@[simp] theorem recordError_lastCmd (c : ErrCode) (w : Word) (s : State) : (recordError c w s).lastCmd = s.lastCmd := by
  unfold recordError; split <;> rfl
@[simp] theorem recordError_dselTarget (c : ErrCode) (w : Word) (s : State) : (recordError c w s).dselTarget = s.dselTarget := by
  unfold recordError; split <;> rfl
@[simp] theorem recordError_dselLimb (c : ErrCode) (w : Word) (s : State) : (recordError c w s).dselLimb = s.dselLimb := by
  unfold recordError; split <;> rfl
@[simp] theorem recordError_dselAinc (c : ErrCode) (w : Word) (s : State) : (recordError c w s).dselAinc = s.dselAinc := by
  unfold recordError; split <;> rfl
@[simp] theorem recordError_turns (c : ErrCode) (w : Word) (s : State) : (recordError c w s).turns = s.turns := by
  unfold recordError; split <;> rfl
@[simp] theorem recordError_reply (c : ErrCode) (w : Word) (s : State) : (recordError c w s).reply = s.reply := by
  unfold recordError; split <;> rfl
@[simp] theorem recordError_readReg (c : ErrCode) (w : Word) (s : State) (k : RegIdx) :
    (recordError c w s).readReg k = s.readReg k := by
  unfold recordError; split <;> rfl
@[simp] theorem recordError_readSlot (c : ErrCode) (w : Word) (s : State) (k : SlotIdx) :
    (recordError c w s).readSlot k = s.readSlot k := by
  unfold recordError; split <;> rfl
@[simp] theorem recordError_err (c : ErrCode) (w : Word) (s : State) : (recordError c w s).err = true := by
  unfold recordError
  split
  · rfl
  · rename_i h
    simpa using h
@[simp] theorem recordError_errOvf (c : ErrCode) (w : Word) (s : State) :
    (recordError c w s).errOvf = (s.errOvf || s.err) := by
  unfold recordError; split <;> simp_all
@[simp] theorem recordError_errCode (c : ErrCode) (w : Word) (s : State) :
    (recordError c w s).errCode = if s.err = false then c.bits else s.errCode := by
  unfold recordError; split <;> simp_all
@[simp] theorem recordError_errInfo (c : ErrCode) (w : Word) (s : State) :
    (recordError c w s).errInfo = if s.err = false then w else s.errInfo := by
  unfold recordError; split <;> simp_all

/-! ### Registers and slots -/

@[simp] theorem State.readReg_writeReg_same (s : State) (i : RegIdx) (v : Poly) : (s.writeReg i v).readReg i = v := by
  simp [State.readReg, State.writeReg]
theorem State.readReg_writeReg_ne (s : State) (i k : RegIdx) (v : Poly) (h : k ≠ i) :
    (s.writeReg i v).readReg k = s.readReg k := by
  have hv : i.val ≠ k.val := fun e => h (Fin.ext e.symm)
  simp [State.readReg, State.writeReg, hv]
theorem State.readReg_writeReg (s : State) (i k : RegIdx) (v : Poly) :
    (s.writeReg i v).readReg k = if k = i then v else s.readReg k := by
  split
  · subst_vars; simp
  · exact s.readReg_writeReg_ne i k v ‹_›
@[simp] theorem State.readSlot_writeTable (s : State) (t : Vector Poly 16) (b : BitVec 16) (k : SlotIdx) :
    (s.writeTable t b).readSlot k = t[k] := rfl
@[simp] theorem blockReset_readReg (s : State) (k : RegIdx) : (blockReset s).readReg k = 0 := by
  simp [State.readReg]
@[simp] theorem blockReset_readSlot (s : State) (k : SlotIdx) : (blockReset s).readSlot k = 0 := by
  simp [State.readSlot]

end Sys2Proof.Machine
end

