-- ==== Sys2Proof/Laws/Ops.lean ====
section
/-! SUPPORT. One lemma for each shared operation that says once everything it can do, which later proofs cite instead of
unfolding it. -/

namespace Sys2Proof.Machine

/-! ### How a command ends -/

@[simp] theorem finish_eq (s : State) : finish s = .next (complete s) := rfl

@[simp] theorem raise_eq (c : ErrCode) (s : State) : raise c s = .next (complete (recordError c s.cmdl s)) := rfl

@[simp] theorem writeResult_eq (rd : RegIdx) (v : Poly) (s : State) :
    writeResult rd v s = .next (complete (s.writeReg rd v)) := rfl

theorem writeChecked_of_fits {rd : RegIdx} {v : Poly} {s : State} (h : bitlen v ≤ s.cfg.polyW) :
    writeChecked rd v s = .next (complete (s.writeReg rd v)) := by
  simp [writeChecked, Nat.not_lt.2 h]

theorem writeChecked_of_wide {rd : RegIdx} {v : Poly} {s : State} (h : s.cfg.polyW < bitlen v) :
    writeChecked rd v s = .next (complete (recordError .width s.cmdl s)) := by
  simp [writeChecked, h]

theorem withDivisor_of_ne {d : Poly} (h : d ≠ 0) (s : State) (k : Host.Outcome State Fault Refusal) :
    withDivisor d s k = k := by
  simp [withDivisor, h]

theorem withDivisor_zero (s : State) (k : Host.Outcome State Fault Refusal) :
    withDivisor 0 s k = .next (complete (recordError .zdiv s.cmdl s)) := rfl

theorem withFoldWidth_of_ne {n : Nat} (h : n ≠ 0) (s : State) (k : Host.Outcome State Fault Refusal) :
    withFoldWidth n s k = k := by
  simp [withFoldWidth, h]

theorem withFoldWidth_zero (s : State) (k : Host.Outcome State Fault Refusal) :
    withFoldWidth 0 s k = .next (complete (recordError .operand s.cmdl s)) := rfl

/-! ### What a command can do -/

/-- The state a command leaves just before it completes: nothing more than an error record, one register or the table. -/
inductive CommandEffect (s : State) : State → Prop where
  | none : CommandEffect s s
  | error (c : ErrCode) : CommandEffect s (recordError c s.cmdl s)
  | reg (rd : RegIdx) (v : Poly) : CommandEffect s (s.writeReg rd v)
  | table (rs1 : RegIdx) (h : s.readReg rs1 ≠ 0) :
    CommandEffect s (s.writeTable (deriveTable (s.readReg rs1)) 0xFFFF#16)
  | clear : CommandEffect s (recordError .zdiv s.cmdl (s.writeTable (Vector.replicate 16 0) 0x0000#16))

theorem writeChecked_effect (rd : RegIdx) (v : Poly) (s : State) :
    ∃ u, writeChecked rd v s = .next (complete u) ∧ CommandEffect s u := by
  unfold writeChecked
  split
  · exact ⟨_, rfl, .error _⟩
  · exact ⟨_, rfl, .reg _ _⟩

theorem withDivisor_effect (d : Poly) (s : State) (k : Host.Outcome State Fault Refusal)
    (hk : ∃ u, k = .next (complete u) ∧ CommandEffect s u) :
    ∃ u, withDivisor d s k = .next (complete u) ∧ CommandEffect s u := by
  unfold withDivisor
  split
  · exact ⟨_, rfl, .error _⟩
  · exact hk

/-- Every command, in every state, ends with its completion after one of the effects of `CommandEffect`. -/
theorem exec_effect (i : Instr) (s : State) : ∃ u, exec i s = .next (complete u) ∧ CommandEffect s u := by
  cases i with
  | nop => exact ⟨_, rfl, .none⟩
  | pli => exact ⟨_, rfl, .reg _ _⟩
  | pmov => exact ⟨_, rfl, .reg _ _⟩
  | pxor => exact ⟨_, rfl, .reg _ _⟩
  | pshl => exact writeChecked_effect _ _ _
  | pshr => exact ⟨_, rfl, .reg _ _⟩
  | pmask => exact ⟨_, rfl, .reg _ _⟩
  | prev rd rs1 imm =>
    simp only [exec, execPrev]
    split
    · exact ⟨_, rfl, .error _⟩
    · exact ⟨_, rfl, .reg _ _⟩
  | pmul => exact writeChecked_effect _ _ _
  | pdiv => exact withDivisor_effect _ _ _ ⟨_, rfl, .reg _ _⟩
  | prem => exact withDivisor_effect _ _ _ ⟨_, rfl, .reg _ _⟩
  | gpolyr => exact ⟨_, rfl, .reg _ _⟩
  | gbar => exact withDivisor_effect _ _ _ ⟨_, rfl, .reg _ _⟩
  | gbarr => exact withDivisor_effect _ _ _ ⟨_, rfl, .reg _ _⟩
  | gfoldr rd rs1 imm =>
    refine withDivisor_effect _ _ _ ?_
    unfold withFoldWidth
    split
    · exact ⟨_, rfl, .error _⟩
    · exact ⟨_, rfl, .reg _ _⟩
  | gremx => exact withDivisor_effect _ _ _ ⟨_, rfl, .reg _ _⟩
  | derive rs1 =>
    simp only [exec, execDerive]
    split
    · exact ⟨_, rfl, .clear⟩
    · exact ⟨_, rfl, .table rs1 ‹_›⟩

/-- The engine's step, legal word or not, ends the same way. -/
theorem engineStep_effect (s : State) : ∃ u, engineStep s = .next (complete u) ∧ CommandEffect s u := by
  unfold engineStep
  split
  · exact exec_effect _ _
  · exact ⟨_, rfl, .error _⟩

/-! ### The DATA window -/

theorem dataRead_of_reg {s : State} {i : RegIdx} (h : selected s = some (.reg i)) :
    dataRead s = (bumpLimb s, limb (s.readReg i) s.dselLimb.toNat) := by
  simp [dataRead, h]

theorem dataRead_of_slot {s : State} {j : SlotIdx} (h : selected s = some (.slot j)) :
    dataRead s = (bumpLimb s, limb (s.readSlot j) s.dselLimb.toNat) := by
  simp [dataRead, h]

theorem dataRead_of_none {s : State} (h : selected s = none) :
    dataRead s = (accessError .access 0x01C#12 false s, 0#32) := by
  simp [dataRead, h]

theorem dataWrite_of_reg {s : State} {i : RegIdx} (d : Word) (h : selected s = some (.reg i)) :
    dataWrite d s = bumpLimb (s.writeReg i (setLimb (s.readReg i) s.dselLimb.toNat d)) := by
  simp [dataWrite, h]

theorem dataWrite_of_not_reg {s : State} (d : Word) (h : ∀ i, selected s ≠ some (.reg i)) :
    dataWrite d s = accessError .access 0x01C#12 true s := by
  unfold dataWrite
  split
  · exact absurd ‹_› (h _)
  · rfl
  · rfl

/-- A DATA read either moves on by a limb or records one error; it returns a limb or 0. -/
theorem dataRead_cases (s : State) :
    (dataRead s).1 = bumpLimb s ∨ dataRead s = (accessError .access 0x01C#12 false s, 0#32) := by
  unfold dataRead
  split
  · exact .inl rfl
  · exact .inl rfl
  · exact .inr rfl

/-- A DATA write either replaces a limb of one register and moves on, or records one error. -/
theorem dataWrite_cases (d : Word) (s : State) :
    (∃ i, selected s = some (.reg i) ∧
      dataWrite d s = bumpLimb (s.writeReg i (setLimb (s.readReg i) s.dselLimb.toNat d))) ∨
      dataWrite d s = accessError .access 0x01C#12 true s := by
  unfold dataWrite
  split
  · exact .inl ⟨_, ‹_›, rfl⟩
  · exact .inr rfl
  · exact .inr rfl

end Sys2Proof.Machine
end

