-- ==== Sys2Proof/Laws/PerInstr.lean ====
section
/-! SUPPORT. Facts about every command as syntax, one lemma per constructor. Family `EncodeOpcode`: the command word of a
well-formed command carries its row's number in the `OP` field (spec/30_encoding.md R121, R128). -/

namespace Sys2Proof.Laws

theorem testBit_reg (r : RegIdx) {n : Nat} (h : 3 ≤ n) : r.val.testBit n = false :=
  Nat.testBit_lt_two_pow (lt_of_lt_of_le r.isLt (Nat.pow_le_pow_right (n := 2) (by omega) h : 2 ^ 3 ≤ 2 ^ n))

theorem testBit_imm {imm : Nat} (hi : imm ≤ 65535) {n : Nat} (h : 16 ≤ n) : imm.testBit n = false :=
  Nat.testBit_lt_two_pow (lt_of_lt_of_le (by omega : imm < 2 ^ 16) (Nat.pow_le_pow_right (by omega) h))

/-- No operand field reaches the `OP` field. -/
theorem opField_encodeFields (o : Op) (rd rs1 rs2 : RegIdx) (imm : Nat) (h : imm ≤ 65535) :
    opField (encodeFields o rd rs1 rs2 imm) = o.code := by
  apply BitVec.eq_of_getLsbD_eq
  intro i hi
  have h1 : 26 + i < 32 := by omega
  simp only [opField, encodeFields, Op.matchWord, BitVec.getLsbD_extractLsb', BitVec.getLsbD_or, BitVec.getLsbD_shiftLeft,
    BitVec.getLsbD_setWidth, BitVec.getLsbD_ofNat]
  rw [testBit_reg rd (by omega), testBit_reg rs1 (by omega), testBit_reg rs2 (by omega), testBit_imm h (by omega)]
  simp [hi, h1, show i < 32 by omega]

namespace EncodeOpcode

/-- The `OP` field of the command word is the number of the command's row. -/
def Statement (i : Instr) : Prop := i.wf = true → opField (encode i) = i.op.code

theorem nop : Statement .nop := fun _ => opField_encodeFields _ _ _ _ _ (by omega)
theorem pli (rd : RegIdx) (imm : Nat) : Statement (.pli rd imm) :=
  fun h => opField_encodeFields _ _ _ _ _ (of_decide_eq_true h)
theorem pmov (rd rs1 : RegIdx) : Statement (.pmov rd rs1) := fun _ => opField_encodeFields _ _ _ _ _ (by omega)
theorem pxor (rd rs1 rs2 : RegIdx) : Statement (.pxor rd rs1 rs2) := fun _ => opField_encodeFields _ _ _ _ _ (by omega)
theorem pshl (rd rs1 : RegIdx) (imm : Nat) : Statement (.pshl rd rs1 imm) :=
  fun h => opField_encodeFields _ _ _ _ _ (of_decide_eq_true h)
theorem pshr (rd rs1 : RegIdx) (imm : Nat) : Statement (.pshr rd rs1 imm) :=
  fun h => opField_encodeFields _ _ _ _ _ (of_decide_eq_true h)
theorem pmask (rd rs1 : RegIdx) (imm : Nat) : Statement (.pmask rd rs1 imm) :=
  fun h => opField_encodeFields _ _ _ _ _ (of_decide_eq_true h)
theorem prev (rd rs1 : RegIdx) (imm : Nat) : Statement (.prev rd rs1 imm) :=
  fun h => opField_encodeFields _ _ _ _ _ (of_decide_eq_true h)
theorem pmul (rd rs1 rs2 : RegIdx) : Statement (.pmul rd rs1 rs2) := fun _ => opField_encodeFields _ _ _ _ _ (by omega)
theorem pdiv (rd rs1 rs2 : RegIdx) : Statement (.pdiv rd rs1 rs2) := fun _ => opField_encodeFields _ _ _ _ _ (by omega)
theorem prem (rd rs1 rs2 : RegIdx) : Statement (.prem rd rs1 rs2) := fun _ => opField_encodeFields _ _ _ _ _ (by omega)
theorem gpolyr (rd rs1 : RegIdx) : Statement (.gpolyr rd rs1) := fun _ => opField_encodeFields _ _ _ _ _ (by omega)
theorem gbar (rd rs1 : RegIdx) : Statement (.gbar rd rs1) := fun _ => opField_encodeFields _ _ _ _ _ (by omega)
theorem gbarr (rd rs1 : RegIdx) : Statement (.gbarr rd rs1) := fun _ => opField_encodeFields _ _ _ _ _ (by omega)
theorem gfoldr (rd rs1 : RegIdx) (imm : Nat) : Statement (.gfoldr rd rs1 imm) :=
  fun h => opField_encodeFields _ _ _ _ _ (of_decide_eq_true h)
theorem gremx (rd rs1 : RegIdx) (imm : Nat) : Statement (.gremx rd rs1 imm) :=
  fun h => opField_encodeFields _ _ _ _ _ (of_decide_eq_true h)
theorem derive (rs1 : RegIdx) : Statement (.derive rs1) := fun _ => opField_encodeFields _ _ _ _ _ (by omega)

end EncodeOpcode

end Sys2Proof.Laws
end

