-- ==== Sys2Proof/Laws/Step.lean ====
section
/-! SUPPORT. What a bus transaction, a turn and a step can do, each said once. -/

namespace Sys2Proof.Machine

/-! ### Bus transactions -/

/-- A read of the window: refused by the BUSY gate, or a DATA read, or nothing but its data. -/
theorem busRead_cases (off : BitVec 12) (s : State) :
    (s.busy = true ∧ gated off = true ∧ busRead off s = (accessError .busy off false s, 0#32)) ∨
      (¬(s.busy = true ∧ gated off = true) ∧ off = 0x01C#12 ∧ busRead off s = dataRead s) ∨
      (¬(s.busy = true ∧ gated off = true) ∧ off ≠ 0x01C#12 ∧ (busRead off s).1 = s) := by
  by_cases h : s.busy = true ∧ gated off = true
  · exact .inl ⟨h.1, h.2, by rw [busRead, if_pos h]⟩
  · refine .inr ?_
    by_cases e : off = 0x01C#12
    · subst e
      exact .inl ⟨h, rfl, by rw [busRead, if_neg h]; rfl⟩
    · have e' : off.toNat ≠ 0x01C := fun x => e (BitVec.eq_of_toNat_eq x)
      refine .inr ⟨h, e, ?_⟩
      rw [busRead, if_neg h]
      split <;> first | rfl | contradiction

/-- A write to the window: refused by the BUSY gate, one of the five registers that can be written, or nothing. -/
theorem busWrite_cases (off : BitVec 12) (d : Word) (s : State) :
    (s.busy = true ∧ gated off = true ∧ busWrite off d s = accessError .busy off true s) ∨
      (¬(s.busy = true ∧ gated off = true) ∧
        ((off = 0x008#12 ∧ busWrite off d s = ctrlWrite d s) ∨ (off = 0x00C#12 ∧ busWrite off d s = statusWrite d s) ∨
          (off = 0x010#12 ∧ busWrite off d s = acceptCommand d s) ∨ (off = 0x018#12 ∧ busWrite off d s = dselWrite d s) ∨
          (off = 0x01C#12 ∧ busWrite off d s = dataWrite d s) ∨
          (off ≠ 0x008#12 ∧ off ≠ 0x00C#12 ∧ off ≠ 0x010#12 ∧ off ≠ 0x018#12 ∧ off ≠ 0x01C#12 ∧ busWrite off d s = s))) := by
  by_cases h : s.busy = true ∧ gated off = true
  · exact .inl ⟨h.1, h.2, by rw [busWrite, if_pos h]⟩
  · refine .inr ⟨h, ?_⟩
    have key : busWrite off d s = (match off.toNat with
      | 0x008 => ctrlWrite d s
      | 0x00C => statusWrite d s
      | 0x010 => acceptCommand d s
      | 0x018 => dselWrite d s
      | 0x01C => dataWrite d s
      | _ => s) := by rw [busWrite, if_neg h] <;> rfl
    by_cases e1 : off = 0x008#12
    · subst e1; exact .inl ⟨rfl, key⟩
    by_cases e2 : off = 0x00C#12
    · subst e2; exact .inr (.inl ⟨rfl, key⟩)
    by_cases e3 : off = 0x010#12
    · subst e3; exact .inr (.inr (.inl ⟨rfl, key⟩))
    by_cases e4 : off = 0x018#12
    · subst e4; exact .inr (.inr (.inr (.inl ⟨rfl, key⟩)))
    by_cases e5 : off = 0x01C#12
    · subst e5; exact .inr (.inr (.inr (.inr (.inl ⟨rfl, key⟩))))
    refine .inr (.inr (.inr (.inr (.inr ⟨e1, e2, e3, e4, e5, ?_⟩))))
    have n1 : off.toNat ≠ 0x008 := fun x => e1 (BitVec.eq_of_toNat_eq x)
    have n2 : off.toNat ≠ 0x00C := fun x => e2 (BitVec.eq_of_toNat_eq x)
    have n3 : off.toNat ≠ 0x010 := fun x => e3 (BitVec.eq_of_toNat_eq x)
    have n4 : off.toNat ≠ 0x018 := fun x => e4 (BitVec.eq_of_toNat_eq x)
    have n5 : off.toNat ≠ 0x01C := fun x => e5 (BitVec.eq_of_toNat_eq x)
    rw [key]
    split <;> first | rfl | contradiction

/-! ### Turns -/

theorem hostTurn_outside {s : State} {t : Transaction} (h : ¬ inWindow s.cfg t.addr) : hostTurn t s = .next s := by
  rw [hostTurn, if_neg h]

theorem hostTurn_error {s : State} {t : Transaction} (h : inWindow s.cfg t.addr) (ha : ¬ alignedWord t) :
    hostTurn t s = .fault (.busError t) := by
  rw [hostTurn, if_pos h, portAccess, if_neg ha]

theorem hostTurn_read {s : State} {a : Nat} (h : inWindow s.cfg a) (ha : alignedWord ⟨a, 4, .read⟩) :
    hostTurn ⟨a, 4, .read⟩ s =
      .next ((busRead (offsetOf a) s).1.answer
      (.okayRead (busRead (offsetOf a) s).2)) := by
  rw [hostTurn, if_pos h, portAccess, if_pos ha]

theorem hostTurn_write {s : State} {a v : Nat} (h : inWindow s.cfg a) (ha : alignedWord ⟨a, 4, .write v⟩) :
    hostTurn ⟨a, 4, .write v⟩ s =
      .next ((busWrite (offsetOf a) (BitVec.ofNat 32 v) s).answer .okayWrite) := by
  rw [hostTurn, if_pos h, portAccess, if_pos ha]

/-- A host's turn: no concern of the block, an answered read, an answered write, or a bus error. -/
theorem hostTurn_cases (t : Transaction) (s : State) :
    (¬ inWindow s.cfg t.addr ∧ hostTurn t s = .next s) ∨
      (inWindow s.cfg t.addr ∧ ¬ alignedWord t ∧ hostTurn t s = .fault (.busError t)) ∨
      (inWindow s.cfg t.addr ∧ alignedWord t ∧ t.access = .read ∧
        hostTurn t s = .next ((busRead (offsetOf t.addr) s).1.answer
      (.okayRead (busRead (offsetOf t.addr) s).2))) ∨
      (inWindow s.cfg t.addr ∧ alignedWord t ∧ ∃ v, t.access = .write v ∧
        hostTurn t s = .next ((busWrite (offsetOf t.addr) (BitVec.ofNat 32 v) s).answer .okayWrite)) := by
  by_cases h : inWindow s.cfg t.addr
  · by_cases ha : alignedWord t
    · obtain ⟨a, n, acc⟩ := t
      obtain ⟨rfl, ho⟩ := ha
      cases acc with
      | read => exact .inr (.inr (.inl ⟨h, ⟨rfl, ho⟩, rfl, hostTurn_read h ⟨rfl, ho⟩⟩))
      | write v => exact .inr (.inr (.inr ⟨h, ⟨rfl, ho⟩, v, rfl, hostTurn_write h ⟨rfl, ho⟩⟩))
    · exact .inr (.inl ⟨h, ha, hostTurn_error h ha⟩)
  · exact .inl ⟨h, hostTurn_outside h⟩

theorem engineTurn_busy {s : State} (h : s.busy = true) : engineTurn s = engineStep s := by simp [engineTurn, h]

theorem engineTurn_idle {s : State} (h : s.busy = false) : engineTurn s = .next s := by simp [engineTurn, h]

/-! ### Steps -/

theorem step_nil {s : State} (h : s.turns = []) : step s = engineTurn s := by simp [step, h]

theorem step_engine {s : State} {rest : List Turn} (h : s.turns = .engine :: rest) :
    step s = engineTurn (s.withTurns rest) := by
  simp [step, State.popTurn, State.withTurns, h]

/-- With a command pending and no turn scheduled, the step is the engine's step on the state as it stands. -/
theorem step_nil_busy {s : State} (h : s.turns = []) (hb : s.busy = true) : step s = engineStep s := by
  rw [step_nil h, engineTurn_busy hb]

/-- With a command pending and the engine's turn first, the step is the engine's step once the turn is taken off. -/
theorem step_engine_busy {s : State} {rest : List Turn} (h : s.turns = .engine :: rest) (hb : s.busy = true) :
    step s = engineStep (s.withTurns rest) := by
  rw [step_engine h, engineTurn_busy (s := s.withTurns rest) hb]

theorem step_host {s : State} {t : Transaction} {rest : List Turn} (h : s.turns = .host t :: rest) :
    step s = hostTurn t (s.withTurns rest) := by
  simp [step, State.popTurn, State.withTurns, h]

theorem step_reset {s : State} {rest : List Turn} (h : s.turns = .reset :: rest) :
    step s = .next (blockReset (s.withTurns rest)) := by
  simp [step, State.popTurn, State.withTurns, h]

/-- What a step can be: the engine's turn, a host's turn, or a reset. -/
theorem step_cases (s : State) :
    (s.turns = [] ∧ step s = engineTurn s) ∨
      (∃ rest, s.turns = .engine :: rest ∧ step s = engineTurn (s.withTurns rest)) ∨
      (∃ t rest, s.turns = .host t :: rest ∧ step s = hostTurn t (s.withTurns rest)) ∨
      (∃ rest, s.turns = .reset :: rest ∧ step s = .next (blockReset (s.withTurns rest))) := by
  match h : s.turns with
  | [] => exact .inl ⟨rfl, step_nil h⟩
  | .engine :: rest => exact .inr (.inl ⟨rest, rfl, step_engine h⟩)
  | .host t :: rest => exact .inr (.inr (.inl ⟨t, rest, rfl, step_host h⟩))
  | .reset :: rest => exact .inr (.inr (.inr ⟨rest, rfl, step_reset h⟩))

/-- A run's first step. -/
theorem core_run_succ {s t : State} (n : Nat) (h : step s = .next t) : core.run (n + 1) s = core.run n t := by
  have h' : core.step s = .next t := h
  simp only [Host.Core.run, h']

/-! ### Host-program notation (R131) -/

theorem offsetOf_base {c : Config} (hc : c.WellFormed) (off : Nat) :
    offsetOf (c.base + off) = BitVec.ofNat 12 off := by
  apply BitVec.eq_of_toNat_eq
  have := hc.2.2.2
  simp only [offsetOf, BitVec.toNat_ofNat]
  omega

/-- The step on `rd OFF`. -/
theorem step_rd {s : State} {off : Nat} {rest : List Turn} (hc : s.cfg.WellFormed) (ho : off < 0x1000) (h4 : off % 4 = 0)
    (h : s.turns = rd s.cfg off :: rest) :
    step s = .next ((busRead (BitVec.ofNat 12 off) (s.withTurns rest)).1.answer
      (.okayRead (busRead (BitVec.ofNat 12 off) (s.withTurns rest)).2)) := by
  have hw : inWindow s.cfg (s.cfg.base + off) := ⟨by omega, by omega⟩
  have ha : alignedWord ⟨s.cfg.base + off, 4, .read⟩ := by
    refine ⟨rfl, ?_⟩
    rw [offsetOf_base hc off]
    simp only [BitVec.toNat_ofNat]
    omega
  rw [step_host h, hostTurn_read (s := s.withTurns rest) hw ha, offsetOf_base hc off]

/-- The step on `wr OFF, VAL`. -/
theorem step_wr {s : State} {off : Nat} {d : Word} {rest : List Turn} (hc : s.cfg.WellFormed) (ho : off < 0x1000)
    (h4 : off % 4 = 0) (h : s.turns = wr s.cfg off d :: rest) :
    step s = .next ((busWrite (BitVec.ofNat 12 off) d (s.withTurns rest)).answer .okayWrite) := by
  have hw : inWindow s.cfg (s.cfg.base + off) := ⟨by omega, by omega⟩
  have ha : alignedWord ⟨s.cfg.base + off, 4, .write d.toNat⟩ := by
    refine ⟨rfl, ?_⟩
    rw [offsetOf_base hc off]
    simp only [BitVec.toNat_ofNat]
    omega
  rw [step_host h, hostTurn_write (s := s.withTurns rest) hw ha, offsetOf_base hc off, BitVec.ofNat_toNat,
    BitVec.setWidth_eq]

end Sys2Proof.Machine
end

