-- ==== Sys2Proof/Tests/Slice0.lean ====
section
/-! SUPPORT. Tests and witnesses. A test's expected value is taken from spec/95_test_vectors.md (the vector's id stands in
its comment) or written out from the spec's tables, never from the model. A theorem `witness_<Name>` shows concrete states
and operands that meet the hypotheses of obligation `<Name>`, each clause of it at the ends of its range. -/

namespace Sys2Proof.Tests

open Sys2Proof.Machine Sys2Proof.Claims

/-! ### Small states -/

/-- The reference generator (R211). -/
abbrev P : Poly := 0x11EDC6F41

/-- Reset, with these turns to come. -/
def idle (ts : List Turn) : State := { State.reset with turns := ts }

/-- Reset, then the word `w` accepted, with these turns to come. -/
def pending (w : Word) (ts : List Turn) : State :=
  { State.reset with busy := true, cmdl := w, lastCmd := w, turns := ts }

/-- A pending command with values in `x[0]` to `x[2]` and 9 in `x[7]`. -/
def regs (a b c : Poly) : State := { pending 0xDEADBEEF#32 [] with x := #v[a, b, c, 0, 0, 0, 0, 9] }

/-- A value of the next state, if there is one. -/
def out {α : Type} (f : State → α) : Host.Outcome State Fault Refusal → Option α
  | .next t => some (f t)
  | .fault _ => none
  | .refused _ => none

/-- The value of a register once a command has run. -/
def result (i : Instr) (rd : RegIdx) (s : State) : Option Poly := out (fun t => t.readReg rd) (exec i s)

/-- What an error of a command leaves: `ERRCODE`, `ERRINFO`, and the destination. -/
def errorOf (i : Instr) (rd : RegIdx) (s : State) : Option (BitVec 8 × Word × Poly) :=
  out (fun t => (t.errCode, t.errInfo, t.readReg rd)) (exec i s)

/-! ### Well-formedness: a command the assembler refuses for each check (R129) -/

theorem test_wf_refuses_wide_immediates :
    Instr.wf (.pli 0 65536) = false ∧ Instr.wf (.pshl 0 0 65536) = false ∧ Instr.wf (.pshr 0 0 65536) = false ∧
      Instr.wf (.pmask 0 0 65536) = false ∧ Instr.wf (.prev 0 0 65536) = false ∧ Instr.wf (.gfoldr 0 0 65536) = false ∧
      Instr.wf (.gremx 0 0 65536) = false := by decide

theorem test_wf_admits_the_widest_immediate : Instr.wf (.pli 7 65535) = true ∧ Instr.wf (.gfoldr 7 7 65535) = true := by
  decide

/-! ### Decoding: words of section 3.1 and of the programs, and words written out from R121 and R124 -/

/-- V-E1, V-E6, V-E10, V-E11, V-E13. -/
theorem test_decode_vectors :
    decode 0x04000000#32 = .cmd .nop ∧ decode 0x28A60000#32 = .cmd (.pmul 1 2 3) ∧
      decode 0x0880FFFF#32 = .cmd (.pli 1 0xFFFF) ∧ decode 0x54000000#32 = .cmd (.derive 0) ∧
      decode 0x4C802020#32 = .cmd (.gfoldr 1 0 8224) := by decide

/-- V-E2 to V-E5, V-E7 to V-E9, V-E10b, V-E12, V-E14, V-E15. -/
theorem test_decode_illegal_vectors :
    decode 0x04000001#32 = .illegal .nonzeroField ∧ decode 0x00000000#32 = .illegal .reservedOpcode ∧
      decode 0x1C000000#32 = .illegal .reservedOpcode ∧ decode 0xFC000000#32 = .illegal .reservedOpcode ∧
      decode 0x28A70000#32 = .illegal .nonzeroField ∧ decode 0x28A60001#32 = .illegal .nonzeroField ∧
      decode 0x08100000#32 = .illegal .nonzeroField ∧ decode 0x08FFFFFF#32 = .illegal .nonzeroField ∧
      decode 0x54800000#32 = .illegal .nonzeroField ∧ decode 0x40800001#32 = .illegal .nonzeroField ∧
      decode 0x21120020#32 = .illegal .nonzeroField := by decide

/-- The reserved numbers at the ends of their ranges. -/
theorem test_decode_reserved_opcodes :
    decode 0x34000000#32 = .illegal .reservedOpcode ∧ decode 0x3C000000#32 = .illegal .reservedOpcode ∧
      decode 0x58000000#32 = .illegal .reservedOpcode := by decide

/-- Support commands: fields written out as OP, RD, RS1, RS2, Z, IMM16 (R121). -/
theorem test_decode_support_bits :
    decode (0b000010#6 ++ 0b111#3 ++ 0b000#3 ++ 0b000#3 ++ 0b0#1 ++ 0xA5C3#16) = .cmd (.pli 7 0xA5C3) ∧
      decode (0b000011#6 ++ 0b101#3 ++ 0b010#3 ++ 0b000#3 ++ 0b0#1 ++ 0x0000#16) = .cmd (.pmov 5 2) ∧
      decode (0b000100#6 ++ 0b011#3 ++ 0b001#3 ++ 0b010#3 ++ 0b0#1 ++ 0x0000#16) = .cmd (.pxor 3 1 2) ∧
      decode (0b000101#6 ++ 0b001#3 ++ 0b100#3 ++ 0b000#3 ++ 0b0#1 ++ 0x007F#16) = .cmd (.pshl 1 4 127) ∧
      decode (0b000110#6 ++ 0b011#3 ++ 0b001#3 ++ 0b000#3 ++ 0b0#1 ++ 0x0020#16) = .cmd (.pshr 3 1 32) := by decide

/-- The library's commands. -/
theorem test_decode_library_bits :
    decode (0b001000#6 ++ 0b010#3 ++ 0b001#3 ++ 0b000#3 ++ 0b0#1 ++ 0x0020#16) = .cmd (.pmask 2 1 32) ∧
      decode (0b001001#6 ++ 0b011#3 ++ 0b010#3 ++ 0b000#3 ++ 0b0#1 ++ 0x8000#16) = .cmd (.prev 3 2 32768) ∧
      decode (0b001010#6 ++ 0b110#3 ++ 0b101#3 ++ 0b011#3 ++ 0b0#1 ++ 0x0000#16) = .cmd (.pmul 6 5 3) ∧
      decode (0b001011#6 ++ 0b110#3 ++ 0b001#3 ++ 0b100#3 ++ 0b0#1 ++ 0x0000#16) = .cmd (.pdiv 6 1 4) ∧
      decode (0b001100#6 ++ 0b010#3 ++ 0b001#3 ++ 0b111#3 ++ 0b0#1 ++ 0x0000#16) = .cmd (.prem 2 1 7) := by decide

/-- The derivation commands. -/
theorem test_decode_derivation_bits :
    decode (0b010000#6 ++ 0b001#3 ++ 0b110#3 ++ 0b000#3 ++ 0b0#1 ++ 0x0000#16) = .cmd (.gpolyr 1 6) ∧
      decode (0b010001#6 ++ 0b010#3 ++ 0b101#3 ++ 0b000#3 ++ 0b0#1 ++ 0x0000#16) = .cmd (.gbar 2 5) ∧
      decode (0b010010#6 ++ 0b011#3 ++ 0b100#3 ++ 0b000#3 ++ 0b0#1 ++ 0x0000#16) = .cmd (.gbarr 3 4) ∧
      decode (0b010011#6 ++ 0b100#3 ++ 0b011#3 ++ 0b000#3 ++ 0b0#1 ++ 0x0080#16) = .cmd (.gfoldr 4 3 128) ∧
      decode (0b010100#6 ++ 0b101#3 ++ 0b010#3 ++ 0b000#3 ++ 0b0#1 ++ 0x0040#16) = .cmd (.gremx 5 2 64) ∧
      decode (0b010101#6 ++ 0b000#3 ++ 0b111#3 ++ 0b000#3 ++ 0b0#1 ++ 0x0000#16) = .cmd (.derive 7) := by decide

/-- Encodings of programs 1 to 4. -/
theorem test_encode_program_words :
    encode (.pshl 1 1 127) = 0x1490007F#32 ∧ encode (.prem 2 1 0) = 0x31100000#32 ∧
      encode (.prev 3 2 32) = 0x25A00020#32 ∧ encode (.pxor 5 3 4) = 0x12B80000#32 ∧
      encode (.pdiv 6 1 0) = 0x2F100000#32 ∧ encode (.gbar 2 0) = 0x45000000#32 ∧
      encode (.pshr 3 1 32) = 0x19900020#32 ∧ encode (.pmask 4 4 32) = 0x22400020#32 ∧
      encode (.gfoldr 3 1 0) = 0x4D900000#32 ∧ encode (.derive 7) = 0x54700000#32 := by decide

/-- The table's numbering of a word's bits, and a step on the fetched word: NOP completes. -/
theorem test_table_word_runs :
    decodeTableWord 32 0x28A60000 = some (.pmul 1 2 3) ∧ decodeTableWord 32 0 = none ∧
      out (fun t => (t.busy, t.done, t.cmdl)) (step (State.reset.withFetchWord 32 0x04000000)) =
        some (false, true, 0x04000000#32) := by decide

/-! ### Commands -/

/-- V-S1. -/
theorem test_nop : out (fun t => (t.done, t.busy, t.err, t.x)) (exec .nop (regs 1 2 3)) =
    some (true, false, false, #v[1, 2, 3, 0, 0, 0, 0, 9]) := by decide

/-- V-S2, V-S3. -/
theorem test_pli : result (.pli 0 0) 0 (regs P 0 0) = some 0 ∧ result (.pli 1 0xFFFF) 1 (regs 0 P 0) = some 0xFFFF := by
  decide

/-- V-S4. -/
theorem test_pmov : result (.pmov 5 2) 5 (regs 0 0 P) = some P := by decide

/-- V-S5, V-S6. -/
theorem test_pxor : result (.pxor 3 1 2) 3 (regs 0 0xC 0xA) = some 0x6 ∧ result (.pxor 3 1 1) 3 (regs 0 P 0) = some 0 := by
  decide

/-- V-S7, V-S10. -/
theorem test_pshl : result (.pshl 1 0 64) 1 (regs 1 0 0) = some 0x10000000000000000 ∧
    result (.pshl 1 0 65535) 1 (regs 0 7 0) = some 0 := by decide +kernel

/-- The law the width vectors need: `1 << s` has `s + 1` bits. -/
theorem bitlen_one_shiftLeft (s : Nat) : bitlen (1 <<< s) = s + 1 := by
  simp only [Nat.one_shiftLeft, bitlen, deg, Nat.log2_two_pow]
  exact if_neg (Nat.two_pow_pos s).ne'

/-- V-S8 and V-S9: the last shift that fits, and the first that does not. -/
theorem test_pshl_width : result (.pshl 1 0 16447) 1 (regs 1 7 0) = some (1 <<< 16447) ∧
    errorOf (.pshl 1 0 16448) 1 (regs 1 7 0) = some (0x03#8, 0xDEADBEEF#32, 7) := by
  constructor
  · simp only [result, exec, execPshl]
    rw [writeChecked_of_fits (by exact (bitlen_one_shiftLeft 16447).le)]
    rfl
  · simp only [errorOf, exec, execPshl]
    rw [writeChecked_of_wide (by rw [show (regs 1 7 0).readReg 0 = 1 from rfl, bitlen_one_shiftLeft]; decide)]
    rfl

/-- V-S11 to V-S13. -/
theorem test_pshr : result (.pshr 1 0 1) 1 (regs P 0 0) = some 0x8F6E37A0 ∧
    result (.pshr 1 0 32) 1 (regs P 0 0) = some 1 ∧ result (.pshr 1 0 33) 1 (regs P 7 0) = some 0 := by decide

/-- V-M1 (with DOC's slipped digit put right, C1), V-M2, V-M3, V-M5, V-M6. -/
theorem test_pmask : result (.pmask 2 1 32) 2 (regs 0 P 0) = some 0x1EDC6F41 ∧
    result (.pmask 2 1 0) 2 (regs 0 P 5) = some 0 ∧ result (.pmask 2 1 33) 2 (regs 0 P 0) = some P ∧
    result (.pmask 2 1 65535) 2 (regs 0 P 0) = some P ∧ result (.pmask 2 1 4) 2 (regs 0 0xFFFF 0) = some 0xF := by
  decide +kernel

/-- V-R1 to V-R7. -/
theorem test_prev : result (.prev 2 1 8) 2 (regs 0 0x01 0) = some 0x80 ∧
    result (.prev 2 1 8) 2 (regs 0 0xC0 0) = some 0x03 ∧ result (.prev 2 1 32) 2 (regs 0 P 0) = some 0x82F63B78 ∧
    result (.prev 2 1 33) 2 (regs 0 P 0) = some 0x105EC76F1 ∧ result (.prev 2 1 0) 2 (regs 0 5 5) = some 0 ∧
    result (.prev 2 1 1) 2 (regs 0 3 0) = some 1 ∧ result (.prev 2 1 4) 2 (regs 0 0x1F0 5) = some 0 := by decide +kernel

/-- V-R10, V-R11. -/
theorem test_prev_width : errorOf (.prev 2 1 16449) 2 (regs 0 1 5) = some (0x03#8, 0xDEADBEEF#32, 5) ∧
    errorOf (.prev 2 1 16449) 2 (regs 0 0 5) = some (0x03#8, 0xDEADBEEF#32, 5) := by decide

/-- V-X1 to V-X7. -/
theorem test_pmul : result (.pmul 0 1 2) 0 (regs 0 3 5) = some 0xF ∧ result (.pmul 1 1 1) 1 (regs 0 5 0) = some 0x11 ∧
    result (.pmul 0 1 2) 0 (regs 0 0xFF 0xFF) = some 0x5555 ∧ result (.pmul 0 1 2) 0 (regs 7 0 P) = some 0 ∧
    result (.pmul 0 1 2) 0 (regs 0 P 1) = some P ∧ result (.pmul 0 1 2) 0 (regs 0 0x1234 0xABCD) = some 0xBF62044 ∧
    result (.pmul 0 2 1) 0 (regs 0 0x1234 0xABCD) = some 0xBF62044 ∧
    result (.pmul 0 1 2) 0 (regs 0 P P) = some 0x10154515014551001 := by decide +kernel

/-- V-D1 to V-D4 and V-D7 to V-D9. -/
theorem test_pdiv : result (.pdiv 0 1 2) 0 (regs 0 0x10000000000000000 P) = some 0x11F91CAF6 ∧
    result (.pdiv 0 1 2) 0 (regs 7 0 P) = some 0 ∧ result (.pdiv 0 1 2) 0 (regs 7 0x1F 0x20) = some 0 ∧
    result (.pdiv 2 1 2) 2 (regs 0 P P) = some 1 ∧ result (.pdiv 0 1 2) 0 (regs 0 P 1) = some P ∧
    result (.pdiv 0 1 2) 0 (regs 0 0xF 0x3) = some 0x5 ∧ result (.pdiv 0 1 2) 0 (regs 0 0b1101 0b11) = some 0b100 := by
  decide +kernel

/-- V-D1 to V-D4 and V-D7 to V-D9. -/
theorem test_prem : result (.prem 0 1 2) 0 (regs 0 0x10000000000000000 P) = some 0x3AAB4576 ∧
    result (.prem 0 1 2) 0 (regs 7 0 P) = some 0 ∧ result (.prem 0 1 2) 0 (regs 7 0x1F 0x20) = some 0x1F ∧
    result (.prem 2 1 2) 2 (regs 0 P P) = some 0 ∧ result (.prem 0 1 2) 0 (regs 7 P 1) = some 0 ∧
    result (.prem 0 1 2) 0 (regs 7 0xF 0x3) = some 0 ∧ result (.prem 0 1 2) 0 (regs 0 0b1101 0b11) = some 1 := by
  decide +kernel

/-- V-D5, V-D6. -/
theorem test_zero_divisor : errorOf (.pdiv 0 1 2) 0 (regs 5 7 0) = some (0x02#8, 0xDEADBEEF#32, 5) ∧
    errorOf (.prem 0 1 2) 0 (regs 5 0 0) = some (0x02#8, 0xDEADBEEF#32, 5) := by decide

/-- V-G1 to V-G3, and the second generator of section 3.6. -/
theorem test_gpolyr : result (.gpolyr 1 0) 1 (regs P 0 0) = some 0x05EC76F1 ∧
    errorOf (.gpolyr 1 0) 1 (regs 0 5 0) = some (0x00#8, 0#32, 0) ∧ result (.gpolyr 1 0) 1 (regs 3 0 0) = some 0x80000000 ∧
    result (.gpolyr 1 0) 1 (regs 0x104C11DB7 0 0) = some 0xDB710641 := by decide +kernel

/-- V-G4 to V-G7, and the second generator. -/
theorem test_gbar : result (.gbar 1 0) 1 (regs P 0 0) = some 0x11F91CAF6 ∧
    result (.gbar 1 0) 1 (regs 1 0 0) = some 0x10000000000000000 ∧
    result (.gbar 1 0) 1 (regs 3 0 0) = some 0xFFFFFFFFFFFFFFFF ∧
    errorOf (.gbar 1 0) 1 (regs 0 5 0) = some (0x02#8, 0xDEADBEEF#32, 5) ∧
    result (.gbar 1 0) 1 (regs 0x104C11DB7 0 0) = some 0x104D101DF := by decide +kernel

/-- V-G8, V-G9, and the second generator. -/
theorem test_gbarr : result (.gbarr 1 0) 1 (regs P 0 0) = some 0xDEA713F1 ∧ result (.gbarr 1 0) 1 (regs 1 7 0) = some 0 ∧
    result (.gbarr 1 0) 1 (regs 0x104C11DB7 0 0) = some 0xF7011641 := by decide +kernel

/-- V-G10 to V-G12, V-G20, and the second generator. -/
theorem test_gfoldr : result (.gfoldr 1 0 128) 1 (regs P 0 0) = some 0x3171D430 ∧
    result (.gfoldr 1 0 1) 1 (regs P 0 0) = some 0x80000000 ∧ result (.gfoldr 1 0 1) 1 (regs 1 7 0) = some 0 ∧
    result (.gfoldr 1 0 64) 1 (regs 0x1000000001B 0 0) = some 0x1B0 ∧
    result (.gfoldr 1 0 96) 1 (regs 0x104C11DB7 0 0) = some 0xCCAA009E := by decide +kernel

/-- V-G13, V-G14. -/
theorem test_gfoldr_errors : errorOf (.gfoldr 1 0 0) 1 (regs P 5 0) = some (0x04#8, 0xDEADBEEF#32, 5) ∧
    errorOf (.gfoldr 1 0 0) 1 (regs 0 5 0) = some (0x02#8, 0xDEADBEEF#32, 5) := by decide

/-- V-G16 to V-G19. -/
theorem test_gremx : result (.gremx 1 0 64) 1 (regs P 0 0) = some 0x3AAB4576 ∧
    result (.gremx 1 0 0) 1 (regs P 0 0) = some 1 ∧ result (.gremx 1 0 31) 1 (regs P 0 0) = some 0x80000000 ∧
    result (.gremx 1 0 32) 1 (regs P 0 0) = some 0x1EDC6F41 ∧ result (.gremx 1 0 33) 1 (regs P 0 0) = some 0x3DB8DE82 ∧
    result (.gremx 1 0 0) 1 (regs 1 7 0) = some 0 := by decide +kernel

/-- Rows 0 to 6 of the reference table (section 2), which use no division of more than 96 bits. -/
theorem test_derive_table : (deriveTable P)[(0 : SlotIdx)] = P ∧ (deriveTable P)[(1 : SlotIdx)] = 0x05EC76F1 ∧
    (deriveTable P)[(2 : SlotIdx)] = 0x11F91CAF6 ∧ (deriveTable P)[(3 : SlotIdx)] = 0xDEA713F1 ∧
    (deriveTable P)[(4 : SlotIdx)] = 0x3AAB4576 ∧ (deriveTable P)[(5 : SlotIdx)] = 0xDD45AAB8 ∧
    (deriveTable P)[(6 : SlotIdx)] = 0x493C7D27 := by
  rw [deriveTable_slot0, deriveTable_slot1, deriveTable_slot2, deriveTable_slot3, deriveTable_slot4, deriveTable_slot5,
    deriveTable_slot6]
  decide +kernel

/-- A table that a zero generator must clear. -/
def stale : State := { regs 0 5 0 with res := Vector.replicate 16 3, resValid := 0xFFFF#16 }

/-- V-G21, V-G22. -/
theorem test_derive_one_and_zero : out (fun t => (t.res, t.resValid, t.errCode, t.errInfo)) (exec (.derive 0) stale) =
    some (Vector.replicate 16 0, 0#16, 0x02#8, 0xDEADBEEF#32) ∧
    out (fun t => (t.resValid, t.readSlot 0, t.readSlot 1, t.readSlot 2)) (exec (.derive 0) (regs 1 0 0)) =
      some (0xFFFF#16, 1, 0, 0x10000000000000000) ∧
    out (fun t => (t.readSlot 3, t.readSlot 4, t.readSlot 5)) (exec (.derive 0) (regs 1 0 0)) = some (0, 0, 0) := by
  decide +kernel

/-! ### The bus (section 3.7) -/

/-- V-B1. -/
theorem test_bus_id_cfg : out (fun t => t.reply) (step (idle [rd Config.standard 0x000])) = some (some (.okayRead 0x47463250#32)) ∧
    out (fun t => t.reply) (step (idle [rd Config.standard 0x004])) = some (some (.okayRead 0x10080202#32)) := by decide

/-- V-B2, V-B3. -/
theorem test_bus_errors : step (idle [.host ⟨0x002, 4, .read⟩]) = .fault (.busError ⟨0x002, 4, .read⟩) ∧
    step (idle [.host ⟨0x010, 2, .write 5⟩]) = .fault (.busError ⟨0x010, 2, .write 5⟩) := ⟨rfl, rfl⟩

/-- V-B4, V-B5, V-B6: what each write leaves the register's word as. -/
theorem test_bus_masks : out dselWord (step (idle [wr Config.standard 0x018 0xFFFFFFFF#32])) = some 0x80FFFFFF#32 ∧
    out ctrlWord (step (idle [wr Config.standard 0x008 0x7FFFFFFF#32])) = some 0x00000003#32 ∧
    out statusWord (step (idle [wr Config.standard 0x00C 0x00000001#32])) = some 0#32 := by decide

/-- V-B7. -/
theorem test_bus_reserved : out (fun t => t.reply) (step (idle [rd Config.standard 0x024])) = some (some (.okayRead 0#32)) ∧
    step (idle [wr Config.standard 0x200 1#32]) = .next { idle [] with reply := some .okayWrite } := ⟨by decide, rfl⟩

/-- V-B8, both schedules: after the engine's step the second write is accepted; before it, it is dropped with `E_BUSY`. -/
theorem test_bus_busy_gate :
    out (fun t => (t.busy, t.err)) (step { idle [wr Config.standard 0x010 0x04000000#32] with done := true }) =
        some (true, false) ∧
      out (fun t => (statusWord t, t.errInfo)) (step (pending 0x04000000#32 [wr Config.standard 0x010 0x04000000#32])) =
        some (0x00000505#32, 0x80000010#32) ∧
      out statusWord (step { pending 0x04000000#32 [.engine] with err := true, errCode := 0x05#8 }) =
        some 0x00000506#32 := by decide

/-- V-B9, V-B10, V-B11: a write to a result slot, a target that selects nothing, a limb past the last. -/
theorem test_bus_data_errors :
    out (fun t => (statusWord t, t.errInfo))
        (step { idle [wr Config.standard 0x01C 0x12345678#32] with dselTarget := 0x10#8 }) =
        some (0x00000604#32, 0x8000001C#32) ∧
      out (fun t => (t.reply, t.errInfo)) (step { idle [rd Config.standard 0x01C] with dselTarget := 0x08#8 }) =
        some (some (.okayRead 0#32), 0x0000001C#32) ∧
      out (fun t => (t.reply, t.errCode)) (step { idle [rd Config.standard 0x01C] with dselLimb := 0x0202#16 }) =
        some (some (.okayRead 0#32), 0x06#8) := by decide

/-- Program 1, step 4: limb 1 of `x[0]` written with auto-increment. -/
theorem test_bus_data_write :
    out (fun t => (t.readReg 0, t.dselLimb)) (step { idle [wr Config.standard 0x01C 1#32] with
      x := #v[0x1EDC6F41, 0, 0, 0, 0, 0, 0, 0], dselLimb := 1#16, dselAinc := true }) = some (P, 2#16) := by decide

/-- Program 1, step 11 (the first read): limb 0 of `RES[2]`; and the stale-limb example of R296. -/
theorem test_bus_data_limbs :
    out (fun t => (t.reply, t.dselLimb)) (step { idle [rd Config.standard 0x01C] with
      res := #v[P, 0, 0x11F91CAF6, 0, 0, 0, 0, 0, 0, 0, 0, 0, 0, 0, 0, 0], dselTarget := 0x12#8, dselAinc := true }) =
        some (some (.okayRead 0x1F91CAF6#32), 1#16) ∧
      setLimb (setLimb 0x10000000000000000 0 0x1EDC6F41#32) 1 1#32 = 0x1000000011EDC6F41 := by decide

/-- Program 1, steps 7 and 9: the two views of slots 0 and 6. -/
theorem test_bus_views :
    let s := fun off => { idle [rd Config.standard off] with
      res := #v[P, 0, 0, 0, 0, 0, 0x493C7D27, 0, 0, 0, 0, 0, 0, 0, 0, 0] }
    out (fun t => t.reply) (step (s 0x100)) = some (some (.okayRead 0x1EDC6F41#32)) ∧
      out (fun t => t.reply) (step (s 0x104)) = some (some (.okayRead 0x82F63B78#32)) ∧
      out (fun t => t.reply) (step (s 0x134)) = some (some (.okayRead 0xE4BE3C92#32)) := by decide

/-- V-B12: `SRST`. -/
theorem test_bus_soft_reset :
    step { stale with turns := [wr Config.standard 0x008 0x80000000#32] } =
      .next { State.reset with reply := some .okayWrite } := rfl

/-- V-B13: the interrupt line before and after the flags are cleared. -/
theorem test_bus_irq :
    let s : State := { idle [wr Config.standard 0x00C 0x6#32] with
      doneIE := true, errIE := true, done := true, err := true, errCode := 0x02#8 }
    s.irq = true ∧ out State.irq (step s) = some false := by decide

/-- Program 4, step 5: a later error keeps the first and sets `ERR_OVF`. -/
theorem test_error_overflow :
    out (fun t => (statusWord t, t.errInfo)) (step { pending 0#32 [] with
      err := true, errCode := 0x02#8, errInfo := 0x2D1E0000#32 }) = some (0x0000020E#32, 0x2D1E0000#32) := by decide

/-! ### The assembler (R129, R130) -/

/-- The examples of R129. -/
theorem test_assemble_examples :
    assemble "pmul p1, p2, p3".toList = some [0x28A60000#32] ∧
      assemble "gfoldr p4, p0, 128 ; comment".toList = some [0x4E000080#32] ∧
      assemble ".word 0x00000000".toList = some [0#32] ∧ assemble "  ; nothing".toList = some [] := by decide +kernel

/-- R130's expansions and R129's refusals. -/
theorem test_assemble_pseudo_and_errors :
    assemble "pxpow p1, 127".toList = some [0x08800001#32, 0x1490007F#32] ∧
      assemble "prev32 p3, p2".toList = some [0x25A00020#32] ∧ assemble "pli p8, 0".toList = none ∧
      assemble "pli p1, 65536".toList = none ∧ assemble "derive p0, p1".toList = none := by decide +kernel

/-! ### Witnesses -/

theorem witness_DecodeAndEncodeAgree : Instr.wf (.pli 7 65535) = true ∧ decode 0x0880FFFF#32 = .cmd (.pli 1 0xFFFF) ∧
    (0 : Nat) ≤ 65535 ∧ (65535 : Nat) ≤ 65535 := by decide

/-- One word for each way to be illegal: the ends of the reserved ranges, `Z`, and each field a form does not use. -/
theorem witness_IllegalWordsRaiseEIllegal :
    (∀ w ∈ [0x00000000#32, 0x1C000000#32, 0x34000000#32, 0x3C000000#32, 0x58000000#32, 0xFC000000#32],
      ((pending w []).busy = true ∧ IllegalWord (pending w []).cmdl ∧ (pending w []).turns = []) ∧
        (pending w [.engine, .reset]).busy = true ∧ IllegalWord (pending w [.engine, .reset]).cmdl ∧
          (pending w [.engine, .reset]).turns = .engine :: [.reset]) ∧
    (∀ p ∈ [(0x28A70000#32, Op.pmul), (0x54800000#32, .derive), (0x08100000#32, .pli), (0x21120020#32, .pmask),
        (0x04000001#32, .nop)],
      ((pending p.1 []).busy = true ∧ IllegalWord (pending p.1 []).cmdl ∧ (pending p.1 []).turns = []) ∧
        (pending p.1 [.engine, .reset]).busy = true ∧ IllegalWord (pending p.1 [.engine, .reset]).cmdl ∧
          (pending p.1 [.engine, .reset]).turns = .engine :: [.reset]) := by
  constructor
  · intro w hw
    have h : IllegalWord w := .inl (by fin_cases hw <;> (unfold reservedOp; decide))
    exact ⟨⟨rfl, h, rfl⟩, rfl, h, rfl⟩
  · intro p hp
    have h : IllegalWord p.1 := .inr ⟨p.2, by fin_cases hp <;> (unfold badField; decide)⟩
    exact ⟨⟨rfl, h, rfl⟩, rfl, h, rfl⟩

theorem witness_StepRunsTheDecodedCommand :
    (pending 0x54000000#32 []).busy = true ∧ decode (pending 0x54000000#32 []).cmdl = .cmd (.derive 0) ∧
      (pending 0x54000000#32 []).turns = [] ∧
      (pending 0x54000000#32 [.engine, .reset]).busy = true ∧
      decode (pending 0x54000000#32 [.engine, .reset]).cmdl = .cmd (.derive 0) ∧
      (pending 0x54000000#32 [.engine, .reset]).turns = .engine :: [.reset] := by decide

/-- An address on each side of a window at 0x4000. -/
theorem witness_IdleEngineAndOutsideAccessHoldState : ((idle []).busy = false ∧ (idle []).turns = []) ∧
    ((idle [.engine]).busy = false ∧ (idle [.engine]).turns = .engine :: []) ∧
    ∀ t ∈ [(⟨0x3FFC, 4, .read⟩ : Transaction), ⟨0x5000, 4, .read⟩],
      let s : State := { idle [.host t] with cfg := { Config.standard with base := 0x4000 } }
      s.turns = .host t :: [] ∧ (t.addr < s.cfg.base ∨ s.cfg.base + 0x1000 ≤ t.addr) := by decide

theorem witness_EveryCommandCompletes :
    ((pending 0x04000000#32 []).busy = true ∧ (pending 0x04000000#32 []).turns = []) ∧
      (pending 0#32 [.engine, .reset]).busy = true ∧ (pending 0#32 [.engine, .reset]).turns = .engine :: [.reset] := by
  decide

/-- The two clauses of `SpelledBy`, for a legal and an illegal word of every row that has an illegal one. -/
theorem witness_SpelledBy :
    (∀ o : Op, o.matchWord &&& 0xFC000000#32 = o.matchWord ∧ o.matchWord &&& o.maskWord = o.matchWord ∧
      (o.matchWord ||| 0x00010000#32) &&& 0xFC000000#32 = o.matchWord ∧
      (o.matchWord ||| 0x00010000#32) &&& o.maskWord ≠ o.matchWord) ∧
      ((pending 0x28A70000#32 []).busy = true ∧ (pending 0x28A70000#32 []).cmdl = 0x28A70000#32 ∧
        (pending 0x28A70000#32 []).turns = []) ∧
      (pending 0x28A70000#32 [.engine]).busy = true ∧ (pending 0x28A70000#32 [.engine]).cmdl = 0x28A70000#32 ∧
        (pending 0x28A70000#32 [.engine]).turns = .engine :: [] := by
  refine ⟨fun o => ?_, by decide⟩
  cases o <;> decide

theorem witness_PliLoadsItsImmediate : (0 : Nat) ≤ 65535 ∧ (65535 : Nat) ≤ 65535 ∧ 16 ≤ (16 : Nat) := by decide

theorem witness_PxorAddsCoefficientwise : (1 : RegIdx) = 1 := rfl

/-- Both clauses where they meet: `x^0` shifted by `POLY_W - 1` and by `POLY_W`; and the zero operand. -/
theorem witness_PshlShiftsLeftOrRefuses :
    (deg ((regs 1 0 0).readReg 0) + 16447 < (regs 1 0 0).cfg.polyW) ∧ (regs 0 0 0).readReg 0 = 0 ∧
      ((regs 1 0 0).readReg 0 ≠ 0 ∧ (regs 1 0 0).cfg.polyW ≤ deg ((regs 1 0 0).readReg 0) + 16448) := by decide

theorem witness_PshrDropsTheLowTerms : bitlen ((regs P 0 0).readReg 0) ≤ 33 ∧ bitlen ((regs 0 0 0).readReg 0) ≤ 0 := by
  decide

theorem witness_PmaskKeepsTheLowBits : (regs P 0 0).readReg 0 < 2 ^ (regs P 0 0).cfg.polyW ∧
    (regs P 0 0).cfg.polyW ≤ 16448 := by decide +kernel

theorem witness_PrevReversesTheLowBits : 0 ≤ (regs 1 0 0).cfg.polyW ∧ 16448 ≤ (regs 1 0 0).cfg.polyW ∧
    (regs 1 0 0).cfg.polyW < 16449 := by decide

/-- Both clauses where they meet, on a one-bit operand and a register of `POLY_W` bits, and of one bit more. -/
theorem witness_PmulStoresTheExactProduct :
    (regs 0 P 1).readReg 0 = 0 ∧ (regs P 0 1).readReg 1 = 0 ∧ (regs 1 P 1).readReg 0 = 1 ∧
      bitlen ((regs 1 P 0).readReg 0) + bitlen ((regs 1 P 0).readReg 1) ≤ (regs 1 P 0).cfg.polyW + 1 ∧
      ((regs (1 <<< 16447) 1 0).readReg 0 ≠ 0 ∧ (regs (1 <<< 16447) 1 0).readReg 1 ≠ 0 ∧
        bitlen ((regs (1 <<< 16447) 1 0).readReg 0) + bitlen ((regs (1 <<< 16447) 1 0).readReg 1) ≤
          (regs (1 <<< 16447) 1 0).cfg.polyW + 1) ∧
      ((regs (1 <<< 16447) 2 0).readReg 0 ≠ 0 ∧ (regs (1 <<< 16447) 2 0).readReg 1 ≠ 0 ∧
        (regs (1 <<< 16447) 2 0).cfg.polyW + 1 <
          bitlen ((regs (1 <<< 16447) 2 0).readReg 0) + bitlen ((regs (1 <<< 16447) 2 0).readReg 1)) := by
  have e : bitlen (1 <<< 16447) = 16448 := bitlen_one_shiftLeft 16447
  have h0 : ∀ a b : Poly, (regs a b 0).readReg 0 = a := fun _ _ => rfl
  have h1 : ∀ a b : Poly, (regs a b 0).readReg 1 = b := fun _ _ => rfl
  have hp : ∀ a b : Poly, (regs a b 0).cfg.polyW = 16448 := fun _ _ => rfl
  have n : (1 : Nat) <<< 16447 ≠ 0 := fun x => by rw [x] at e; exact absurd e (by decide)
  rw [h0, h0, h0, h1, h1, h1, hp, hp, hp, e]
  exact ⟨rfl, rfl, rfl, by decide, ⟨n, by decide, by decide⟩, n, by decide, by decide⟩

theorem witness_PdivStoresTheQuotient : (regs 0 7 1).readReg 2 ≠ 0 ∧ (regs 0 7 0).readReg 2 = 0 := by decide
theorem witness_PremStoresTheRemainder : (regs 0 7 1).readReg 2 ≠ 0 ∧ (regs 0 7 0).readReg 2 = 0 := by decide
theorem witness_GbarStoresTheBarrettConstant : (regs 1 0 0).readReg 0 ≠ 0 ∧ (regs 0 0 0).readReg 0 = 0 := by decide
theorem witness_GbarrReflectsTheBarrettConstant : (regs 1 0 0).readReg 0 ≠ 0 ∧ (regs 0 0 0).readReg 0 = 0 := by decide
theorem witness_DeriveFillsOrClearsTheTable : (regs 1 0 0).readReg 0 ≠ 0 ∧ (regs 0 0 0).readReg 0 = 0 := by decide
theorem witness_DeriveSlotsEqualTheSingleCommands : (regs 1 0 0).readReg 0 ≠ 0 := by decide

theorem witness_GfoldrStoresTheFoldConstant : ((regs P 0 0).readReg 0 ≠ 0 ∧ (1 : Nat) ≠ 0) ∧
    ((regs P 0 0).readReg 0 ≠ 0 ∧ (65535 : Nat) ≠ 0) ∧ ((regs P 0 0).readReg 0 ≠ 0 ∧ (0 : Nat) = 0) ∧
    (regs 0 0 0).readReg 0 = 0 := by decide

theorem witness_GremxStoresThePowerRemainder : (regs P 0 0).readReg 0 ≠ 0 ∧ 31 < deg ((regs P 0 0).readReg 0) ∧
    ¬ 32 < deg ((regs P 0 0).readReg 0) := by decide

theorem witness_ReversalMovesEachBit : 0 < (1 : Nat) ∧ 31 < (32 : Nat) := by decide

/-- The division's cases: a short dividend, a long one, and a quotient and remainder that meet the identity. -/
theorem witness_DivisionAlgorithmIsCorrect : (3 : Nat) ≠ 0 ∧ deg 1 < deg 3 ∧ ((0b1101 : Nat) ≠ 0 ∧ deg 3 ≤ deg 0b1101) ∧
    (0b1101 = clmul 0b100 0b11 ^^^ 0b1 ∧ deg 0b1 < deg 0b11) := by decide

theorem witness_LibraryLawsHold : (3 : Nat) ≠ 0 ∧ bitlen 0x1234 ≤ 16 ∧ (regs 0 7 0).readReg 2 = 0 := by decide

theorem witness_FoldingKeepsTheRemainder : P ≠ 0 := by decide

/-- An address at each end of the window, with refused sizes and alignments. -/
theorem witness_OnlyAlignedWordsInTheWindowAreAnswered :
    let w := { Config.standard with base := 0x4000 }
    let s := fun t : Transaction => ({ idle [.host t] with cfg := w } : State)
    (∀ t ∈ [(⟨0x4000, 4, .read⟩ : Transaction), ⟨0x4FFC, 4, .write 1⟩], (s t).turns = .host t :: [] ∧
      ((s t).cfg.base ≤ t.addr ∧ t.addr < (s t).cfg.base + 0x1000) ∧ (t.size = 4 ∧ t.addr % 4 = 0)) ∧
    (∀ t ∈ [(⟨0x4002, 4, .read⟩ : Transaction), ⟨0x4FFC, 8, .read⟩, ⟨0x4FFF, 1, .write 1⟩], (s t).turns = .host t :: [] ∧
      ((s t).cfg.base ≤ t.addr ∧ t.addr < (s t).cfg.base + 0x1000) ∧ (t.size ≠ 4 ∨ t.addr % 4 ≠ 0)) := by decide

/-- The hypotheses of the statements about one bus access: legal parameters, an offset of each kind, idle or pending. -/
theorem witness_RegistersReadAsTheirFields :
    (∀ off ∈ [0x000, 0x020, 0x024, 0x100, 0x17C, 0x180, 0xFFC],
      (idle [rd Config.standard off]).cfg.WellFormed ∧ (off < 0x1000 ∧ off % 4 = 0) ∧ off ≠ 0x01C ∧
        (idle [rd Config.standard off]).busy = false ∧
        (idle [rd Config.standard off]).turns = rd (idle [rd Config.standard off]).cfg off :: []) ∧
    (pending 0#32 [rd Config.standard 0x00C]).cfg.WellFormed ∧ ¬ GatedOffset 0x00C ∧ ¬ GatedOffset 0x024 ∧
      ¬ GatedOffset 0x180 ∧ (pending 0#32 [rd Config.standard 0x00C]).busy = true := by
  refine ⟨by decide, by decide, ?_, ?_, ?_, rfl⟩ <;> (unfold GatedOffset; decide)

/-- A DATA access's selections: the ends of both target ranges, the last limb, the first values outside them. -/
theorem witness_DataReadReturnsTheSelectedLimb :
    let s := fun (t : BitVec 8) (k : BitVec 16) =>
      ({ idle [rd Config.standard 0x01C] with dselTarget := t, dselLimb := k } : State)
    (s 0 0).cfg.WellFormed ∧ (s 0 0).busy = false ∧ (s 0 0).turns = rd (s 0 0).cfg 0x01C :: [] ∧
      (∀ t ∈ [0x00#8, 0x07#8, 0x10#8, 0x1F#8], (s t 513).dselLimb.toNat < (s t 513).cfg.polyW / 32 ∧
        selectedValue (s t 513) = some 0) ∧
      (∀ t ∈ [0x08#8, 0x0F#8, 0x20#8, 0xFF#8], selectedValue (s t 0) = none) ∧
      (s 0 514).cfg.polyW / 32 ≤ (s 0 514).dselLimb.toNat := by decide

theorem witness_DataWriteReplacesOneLimb :
    let s := fun (t : BitVec 8) (k : BitVec 16) =>
      ({ idle [wr Config.standard 0x01C 1#32] with dselTarget := t, dselLimb := k } : State)
    (s 0 0).cfg.WellFormed ∧ (s 0 0).busy = false ∧ (s 0 0).turns = wr (s 0 0).cfg 0x01C 1#32 :: [] ∧
      ((s 0 0).dselLimb.toNat < (s 0 0).cfg.polyW / 32 ∧ (s 0 0).dselTarget.toNat = (0 : RegIdx).val) ∧
      ((s 7 513).dselLimb.toNat < (s 7 513).cfg.polyW / 32 ∧ (s 7 513).dselTarget.toNat = (7 : RegIdx).val) ∧
      8 ≤ (s 8 0).dselTarget.toNat ∧ 8 ≤ (s 0x10 0).dselTarget.toNat ∧
      (s 0 514).cfg.polyW / 32 ≤ (s 0 514).dselLimb.toNat := by decide

theorem witness_LimbReadAfterLimbWrite : (1 : Nat) ≠ 0 ∧ 0 < (1 : Nat) ∧ (7 : Nat) < 2 ^ (32 * 1) := by decide

theorem witness_GatedAccessIsRefusedWhileBusy :
    ∀ off ∈ [0x010, 0x018, 0x01C, 0x020, 0x100, 0x17C], (off < 0x1000 ∧ off % 4 = 0) ∧ GatedOffset off ∧
      (pending 0#32 [rd Config.standard off]).cfg.WellFormed ∧ (pending 0#32 [rd Config.standard off]).busy = true ∧
      (pending 0#32 [rd Config.standard off]).turns = rd (pending 0#32 [rd Config.standard off]).cfg off :: [] ∧
      (pending 0#32 [wr Config.standard off 7#32]).turns =
        wr (pending 0#32 [wr Config.standard off 7#32]).cfg off 7#32 :: [] := by
  unfold GatedOffset; decide

theorem witness_CmdWriteIssuesAnyWord :
    let t := [wr Config.standard 0x010 0xFFFFFFFF#32]
    ((idle t).cfg.WellFormed ∧ (idle t).busy = false ∧ (idle t).turns = wr (idle t).cfg 0x010 0xFFFFFFFF#32 :: []) ∧
      (pending 0#32 t).cfg.WellFormed ∧ (pending 0#32 t).busy = true ∧
        (pending 0#32 t).turns = wr (pending 0#32 t).cfg 0x010 0xFFFFFFFF#32 :: [] := by decide

theorem witness_StatusWriteClearsFlags :
    (idle [wr Config.standard 0x00C 0x4#32]).cfg.WellFormed ∧
      (idle [wr Config.standard 0x00C 0x4#32]).turns = wr (idle [wr Config.standard 0x00C 0x4#32]).cfg 0x00C 0x4#32 :: [] ∧
      (0x4#32).getLsbD 2 = true ∧ (0xB#32).getLsbD 2 = false := by decide

theorem witness_CtrlWriteStoresEnablesOrResets :
    (idle [wr Config.standard 0x008 0x80000003#32]).cfg.WellFormed ∧
      (idle [wr Config.standard 0x008 0x80000003#32]).turns =
        wr (idle [wr Config.standard 0x008 0x80000003#32]).cfg 0x008 0x80000003#32 :: [] ∧
      (0x80000003#32).getLsbD 31 = true ∧ (0x7FFFFFFF#32).getLsbD 31 = false := by decide

theorem witness_DselReadsBackAsWritten :
    (idle [wr Config.standard 0x018 0xFFFFFFFF#32]).cfg.WellFormed ∧
      (idle [wr Config.standard 0x018 0xFFFFFFFF#32]).busy = false ∧
      (idle [wr Config.standard 0x018 0xFFFFFFFF#32]).turns =
        wr (idle [wr Config.standard 0x018 0xFFFFFFFF#32]).cfg 0x018 0xFFFFFFFF#32 :: [] := by decide

theorem witness_ReadOnlyOffsetsIgnoreWrites :
    (∀ off ∈ [0x000, 0x004, 0x014, 0x020, 0x024, 0x100, 0x17C, 0xFFC],
      (idle [wr Config.standard off 7#32]).cfg.WellFormed ∧ (off < 0x1000 ∧ off % 4 = 0) ∧
        (off ≠ 0x008 ∧ off ≠ 0x00C ∧ off ≠ 0x010 ∧ off ≠ 0x018 ∧ off ≠ 0x01C) ∧
        (idle [wr Config.standard off 7#32]).busy = false ∧
        (idle [wr Config.standard off 7#32]).turns = wr (idle [wr Config.standard off 7#32]).cfg off 7#32 :: []) ∧
      (pending 0#32 [wr Config.standard 0x014 7#32]).busy = true ∧ ¬ GatedOffset 0x014 := by
  refine ⟨by decide, rfl, ?_⟩
  unfold GatedOffset; decide

theorem witness_ControlWritesAreIdempotent : (0x00C#12 : BitVec 12) = 0x00C#12 ∧
    ((0x008#12 : BitVec 12) = 0x008#12 ∧ (0x3#32).getLsbD 31 = false) ∧
    ((0x018#12 : BitVec 12) = 0x018#12 ∧ (idle []).busy = false) := by decide

/-- A step that keeps the error, and each of the three that clear it: the reset input, `SRST`, a STATUS write with bit 2. -/
theorem witness_FirstErrorIsKept :
    (∃ t, step { idle [] with err := true } = .next t ∧ t.err = true) ∧
      ∀ ts ∈ [[Turn.reset], [wr Config.standard 0x008 0x80000000#32], [wr Config.standard 0x00C 0x4#32]],
        ({ idle ts with err := true } : State).err = true ∧
          ∃ t, step { idle ts with err := true } = .next t ∧ t.err = false := by
  refine ⟨⟨_, rfl, rfl⟩, fun ts h => ?_⟩
  fin_cases h <;> exact ⟨rfl, _, rfl, rfl⟩

theorem witness_InterruptSourcesAreMaskedAndCleared : (0x3#32).getLsbD 31 = false ∧ (idle []).busy = false := by decide

theorem witness_BothResetSourcesSetEveryElement :
    (pending 0#32 [.reset]).turns = .reset :: [] ∧ (pending 0#32 []).cfg.WellFormed ∧ (0x80000000#32).getLsbD 31 = true ∧
      (pending 0#32 [wr Config.standard 0x008 0x80000000#32]).turns =
        wr (pending 0#32 [wr Config.standard 0x008 0x80000000#32]).cfg 0x008 0x80000000#32 :: [] := by decide

theorem witness_InvariantAtReset : Config.standard.WellFormed ∧
    ({ polyW := 8224, base := 0x1000, irqLine := 7 } : Config).WellFormed ∧
    ({ polyW := 2097120, base := 0x1000, irqLine := 7 } : Config).WellFormed := by decide

/-- A pending PMOV on a register that holds `P`: the invariant holds and the step answers a next state. -/
theorem witness_EveryStepKeepsTheInvariant :
    let s : State := { pending 0x0E900000#32 [] with x := #v[P, P, P, P, P, P, P, P] }
    s.Inv ∧ ∃ t, step s = .next t :=
  ⟨⟨by decide, by decide +kernel, by decide +kernel, .inl ⟨rfl, by decide⟩, by decide, by decide, rfl, by decide⟩, _, rfl⟩

/-- Each way a slot can change: a failing DERIVE, with no turn left and at the engine's turn, the reset input, `SRST`. -/
theorem witness_OnlyDeriveOrResetChangesResults :
    ∀ s ∈ [{ stale with cmdl := 0x54000000#32 }, { stale with cmdl := 0x54000000#32, turns := [.engine] },
        { stale with turns := [.reset] },
        { stale with turns := [wr Config.standard 0x008 0x80000000#32] }],
      ∃ t, step s = .next t ∧ ¬ TableKept s t := by
  intro s hs
  fin_cases hs <;> exact ⟨_, rfl, fun h => absurd h.1 (by decide)⟩

theorem witness_CommandsChangeOnlyTheirDestination :
    decode 0x0EA00000#32 = .cmd (.pmov 5 2) ∧ (∃ t, exec (.pmov 5 2) (regs 0 0 P) = .next t) ∧ (4 : RegIdx) ≠ rdField 0x0EA00000#32 ∧
      usesRd (Instr.op (.derive 0)).form = false := ⟨by decide, ⟨_, rfl⟩, by decide, rfl⟩

/-- A host that polls, writes a GATED offset too early and clears the error while a command is pending. -/
theorem witness_PendingCommandIsNotDisturbed : (pending 0x54000000#32 []).busy = true ∧
    ∀ t ∈ [rd Config.standard 0x00C, wr Config.standard 0x01C 5#32, wr Config.standard 0x00C 4#32,
      wr Config.standard 0x008 3#32], t.hostOnly (pending 0x54000000#32 []).cfg := by
  refine ⟨rfl, fun t ht => ?_⟩
  fin_cases ht <;> refine ⟨fun _ => by decide, fun v h _ ho => ?_⟩
  · cases h
  · exact absurd ho (by decide)
  · exact absurd ho (by decide)
  · cases h; decide

theorem witness_PendingCommandIsNotSeen :
    let s := pending 0x54000000#32 [rd Config.standard 0x01C]
    s.busy = true ∧ s.turns = .host ⟨0x01C, 4, .read⟩ :: [] ∧ ∀ t, step s = .next t → t.busy = true := by
  refine ⟨rfl, rfl, fun t h => ?_⟩
  cases h; rfl

theorem witness_PendingCommandCompletes :
    let s := pending 0x54000000#32 [rd Config.standard 0x00C, .engine]
    (s.busy = true ∧ ∀ t ∈ s.turns, t.answered s.cfg) ∧ ∀ u ∈ s.turns, u = .engine ∨ u.hostOnly s.cfg := by
  refine ⟨⟨rfl, fun t ht => ?_⟩, fun t ht => ?_⟩
  · fin_cases ht
    · exact fun _ => by decide
    · trivial
  · fin_cases ht
    · exact .inr ⟨fun _ => by decide, fun v h => nomatch h⟩
    · exact .inl rfl

theorem witness_PseudoInstructionsDoAsTheyExpand : (16447 : Nat) < (idle []).cfg.polyW ∧ (idle []).cfg.polyW ≤ 16448 ∧
    32 ≤ (idle []).cfg.polyW := by decide

theorem witness_AssemblerRefusesOutOfRange : assembleLine (.instr (.pmul 1 2 3)) = some [0x28A60000#32] ∧
    assembleLine (.instr (.pli 1 65536)) = none := by decide

end Sys2Proof.Tests
end

