-- ==== Sys2Proof/Proofs/DestinationFrame.lean ====
section
/-! PROOF. A command changes at most the register its `RD` names (O55). The frame is proved once for each shared operation
by which a command ends, then for each row of the opcode map; a row without `RD` builds the same command for every `RD`. -/

namespace Sys2Proof.Machine

open Sys2Proof.Claims

/-! ### The decoder's answer -/

/-- A word decodes to a command exactly when its `OP` has a row whose mask it matches, and the command is that row's, built
from the word's own fields (R125, R127). -/
theorem decode_eq_cmd_iff {w : Word} {i : Instr} :
    decode w = .cmd i ↔ ∃ o, Op.ofCode (opField w) = some o ∧ w &&& o.maskWord = o.matchWord ∧
      o.build (rdField w) (rs1Field w) (rs2Field w) (immField w) = i := by
  unfold decode
  cases Op.ofCode (opField w) with
  | none => simp
  | some o => by_cases hm : w &&& o.maskWord = o.matchWord <;> simp [hm]

theorem op_build (o : Op) (rd rs1 rs2 : RegIdx) (imm : Nat) : (o.build rd rs1 rs2 imm).op = o := by
  cases o <;> rfl

/-- A row whose form has no `RD` does not read it (R123, R127). -/
theorem build_eq_build_of_not_usesRd {o : Op} (h : usesRd o.form = false) (rd rd' rs1 rs2 : RegIdx) (imm : Nat) :
    o.build rd rs1 rs2 imm = o.build rd' rs1 rs2 imm := by
  cases o with
  | nop => rfl
  | derive => rfl
  | _ => cases h

/-! ### The frame of the shared operations -/

/-- Every register but `x[rd]` is in `t` as in `s`. -/
def RegsKeptBut (rd : RegIdx) (s t : State) : Prop := ∀ k, k ≠ rd → t.readReg k = s.readReg k

/-- The outcome is a next state, and in it every register but `x[rd]` is as in `s`. -/
def NextKeepsBut (rd : RegIdx) (s : State) (r : Host.Outcome State Fault Refusal) : Prop :=
  ∃ t, r = .next t ∧ RegsKeptBut rd s t

section Frame

variable {rd : RegIdx} {s : State}

theorem RegsKeptBut.refl : RegsKeptBut rd s s := fun _ _ => rfl

theorem finish_keepsBut {u : State} (h : RegsKeptBut rd s u) : NextKeepsBut rd s (finish u) :=
  ⟨complete u, rfl, h⟩

theorem raise_keepsBut {u : State} (c : ErrCode) (h : RegsKeptBut rd s u) : NextKeepsBut rd s (raise c u) :=
  ⟨_, raise_eq c u, fun k hk => (recordError_readReg c u.cmdl u k).trans (h k hk)⟩

theorem writeResult_keepsBut (v : Poly) : NextKeepsBut rd s (writeResult rd v s) :=
  finish_keepsBut fun k hk => s.readReg_writeReg_ne rd k v hk

theorem writeChecked_keepsBut (v : Poly) : NextKeepsBut rd s (writeChecked rd v s) := by
  unfold writeChecked
  split
  · exact raise_keepsBut _ .refl
  · exact writeResult_keepsBut v

theorem withDivisor_keepsBut (d : Poly) {r : Host.Outcome State Fault Refusal} (h : NextKeepsBut rd s r) :
    NextKeepsBut rd s (withDivisor d s r) := by
  unfold withDivisor
  split
  · exact raise_keepsBut _ .refl
  · exact h

theorem withFoldWidth_keepsBut (n : Nat) {r : Host.Outcome State Fault Refusal} (h : NextKeepsBut rd s r) :
    NextKeepsBut rd s (withFoldWidth n s r) := by
  unfold withFoldWidth
  split
  · exact raise_keepsBut _ .refl
  · exact h

end Frame

/-! ### The frame of the commands -/

/-- PREV's arm: its width check is on `w` alone (R157). -/
theorem exec_prev_eq (rd rs1 : RegIdx) (imm : Nat) (s : State) : exec (.prev rd rs1 imm) s =
    if s.cfg.polyW < imm then raise .width s else writeResult rd (brev (s.readReg rs1) imm) s := rfl

theorem exec_prev_keepsBut (rd rs1 : RegIdx) (imm : Nat) (s : State) :
    NextKeepsBut rd s (exec (.prev rd rs1 imm) s) := by
  rw [exec_prev_eq]
  split
  · exact raise_keepsBut _ .refl
  · exact writeResult_keepsBut _

/-- DERIVE writes the result table only, so that it keeps all registers, whichever `rd` is left out (R219). -/
theorem execDerive_keepsBut (rd rs1 : RegIdx) (s : State) : NextKeepsBut rd s (execDerive rs1 s) := by
  unfold execDerive
  split
  · exact raise_keepsBut _ fun _ _ => rfl
  · exact finish_keepsBut fun _ _ => rfl

/-- The command of every row, in every state, keeps all registers but the one that stands in its `RD` field (R12). -/
theorem exec_build_keepsBut (o : Op) (rd rs1 rs2 : RegIdx) (imm : Nat) (s : State) :
    NextKeepsBut rd s (exec (o.build rd rs1 rs2 imm) s) := by
  cases o with
  | nop => exact finish_keepsBut .refl
  | pli => exact writeResult_keepsBut _
  | pmov => exact writeResult_keepsBut _
  | pxor => exact writeResult_keepsBut _
  | pshl => exact writeChecked_keepsBut _
  | pshr => exact writeResult_keepsBut _
  | pmask => exact writeResult_keepsBut _
  | prev => exact exec_prev_keepsBut rd rs1 imm s
  | pmul => exact writeChecked_keepsBut _
  | pdiv => exact withDivisor_keepsBut _ (writeResult_keepsBut _)
  | prem => exact withDivisor_keepsBut _ (writeResult_keepsBut _)
  | gpolyr => exact writeResult_keepsBut _
  | gbar => exact withDivisor_keepsBut _ (writeResult_keepsBut _)
  | gbarr => exact withDivisor_keepsBut _ (writeResult_keepsBut _)
  | gfoldr => exact withDivisor_keepsBut _ (withFoldWidth_keepsBut imm (writeResult_keepsBut _))
  | gremx => exact withDivisor_keepsBut _ (writeResult_keepsBut _)
  | derive => exact execDerive_keepsBut rd rs1 s

theorem exec_build_regsKeptBut {o : Op} {rd rs1 rs2 : RegIdx} {imm : Nat} {s t : State}
    (h : exec (o.build rd rs1 rs2 imm) s = .next t) : RegsKeptBut rd s t := by
  obtain ⟨u, hu, hk⟩ := exec_build_keepsBut o rd rs1 rs2 imm s
  cases h.symm.trans hu
  exact hk

/-- Without an `RD` the command is the same for every `rd`; one other than `k` shows that `x[k]` is kept. -/
theorem exec_build_regsKept {o : Op} (ho : usesRd o.form = false) {rd rs1 rs2 : RegIdx} {imm : Nat} {s t : State}
    (h : exec (o.build rd rs1 rs2 imm) s = .next t) : RegsKept s t := by
  intro k
  obtain ⟨rd', hne⟩ := exists_ne k
  rw [build_eq_build_of_not_usesRd ho rd rd'] at h
  exact exec_build_regsKeptBut h k hne.symm

/-- Settles O55: the decoder builds the command from the word's fields, and the frame of each row does the rest. -/
theorem commandsChangeOnlyTheirDestination : Obligations.CommandsChangeOnlyTheirDestination := by
  unfold Obligations.CommandsChangeOnlyTheirDestination
  intro w i s t hw ht
  obtain ⟨o, -, -, rfl⟩ := decode_eq_cmd_iff.1 hw
  rw [op_build]
  exact ⟨exec_build_regsKeptBut ht, fun ho => exec_build_regsKept ho ht⟩

end Sys2Proof.Machine
end

