-- ==== Sys2Proof/Proofs/ValueBounds.lean ====
section
/-! PROOF. How wide the values of the pure functions are (R10, R54 item 1): reversals and limbs by their width, the quotient
by its dividend, the remainder by its divisor. The division's fact is that each pass clears the remainder's top bit (R153). -/

namespace Sys2Proof.Machine

/-! ### Reversal and limbs (R151, R81) -/

theorem mask_le (a : Poly) (w : Nat) : mask a w ≤ a := Nat.and_le_left

theorem one_shiftLeft_lt {k n : Nat} (h : k < n) : 1 <<< k < 2 ^ n := by
  rw [Nat.one_shiftLeft]
  exact Nat.pow_lt_pow_right (by omega) h

theorem brevBits_lt (m w : Nat) {n : Nat} (h : n ≤ w) : brevBits m w n < 2 ^ w := by
  induction n with
  | zero => exact Nat.two_pow_pos w
  | succ n ih =>
    have hlow : brevBits m w n < 2 ^ w := ih (by omega)
    rw [brevBits]
    split
    · exact Nat.or_lt_two_pow hlow (one_shiftLeft_lt (by omega))
    · exact hlow

theorem brev_lt (a : Poly) (w : Nat) : brev a w < 2 ^ w := brevBits_lt _ w le_rfl

theorem setLimb_lt {v : Poly} {k n : Nat} (d : Word) (hv : v < 2 ^ n) (hk : 32 * k + 32 ≤ n) : setLimb v k d < 2 ^ n := by
  have hkept : andNot v ((2 ^ 32 - 1) <<< (32 * k)) < 2 ^ n :=
    Nat.xor_lt_two_pow hv (Nat.and_le_left.trans_lt hv)
  have hnew : d.toNat <<< (32 * k) < 2 ^ n :=
    (Nat.shiftLeft_lt d.isLt).trans_le (Nat.pow_le_pow_right (by omega) (by omega))
  exact Nat.or_lt_two_pow hkept hnew

/-! ### Division (R153, R154) -/

theorem lt_two_pow_deg_succ (v : Poly) : v < 2 ^ (deg v + 1) := Nat.lt_log2_self

theorem testBit_deg {v : Poly} (h : v ≠ 0) : v.testBit (deg v) = true := Nat.testBit_log2 h

theorem two_pow_deg_le {v : Poly} (h : v ≠ 0) : 2 ^ deg v ≤ v := Nat.log2_self_le h

theorem deg_lt_iff {v : Poly} (h : v ≠ 0) {n : Nat} : deg v < n ↔ v < 2 ^ n := Nat.log2_lt h

/-- Two values whose top bit is bit `d`: it cancels in their sum. -/
theorem xor_lt_of_testBit {x y d : Nat} (hx : x < 2 ^ (d + 1)) (hy : y < 2 ^ (d + 1)) (hxd : x.testBit d = true)
    (hyd : y.testBit d = true) : x ^^^ y < 2 ^ d := by
  refine Nat.lt_pow_two_of_testBit _ fun i hi => ?_
  obtain rfl | hlt := Nat.eq_or_lt_of_le hi
  · simp [hxd, hyd]
  · exact Nat.testBit_lt_two_pow ((Nat.xor_lt_two_pow hx hy).trans_le (Nat.pow_le_pow_right (by omega) hlt))

theorem xor_aligned_lt {r b : Poly} (hr : r ≠ 0) (hb : b ≠ 0) (h : deg b ≤ deg r) :
    r ^^^ (b <<< (deg r - deg b)) < 2 ^ deg r := by
  refine xor_lt_of_testBit (lt_two_pow_deg_succ r) ?_ (testBit_deg hr) ?_
  · have := Nat.shiftLeft_lt (m := deg r - deg b) (lt_two_pow_deg_succ b)
    rwa [show deg b + 1 + (deg r - deg b) = deg r + 1 by omega] at this
  · rw [Nat.testBit_shiftLeft, show deg r - (deg r - deg b) = deg b by omega, testBit_deg hb]
    simp

theorem divPass_of_open {b : Poly} {d : DivState} (h : d.rem ≠ 0 ∧ deg b ≤ deg d.rem) : divPass b d =
    { quot := d.quot ^^^ (1 <<< (deg d.rem - deg b)), rem := d.rem ^^^ (b <<< (deg d.rem - deg b)) } := by
  rw [divPass, if_pos h]

/-- A pass keeps quotient and remainder within the dividend's width. -/
theorem divPasses_lt {a b : Poly} {n : Nat} (hb : b ≠ 0) (ha : a < 2 ^ n) (m : Nat) :
    (divPasses a b m).quot < 2 ^ n ∧ (divPasses a b m).rem < 2 ^ n := by
  induction m with
  | zero => exact ⟨Nat.two_pow_pos n, ha⟩
  | succ m ih =>
    obtain ⟨hq, hr⟩ := ih
    rw [divPasses]
    by_cases h : (divPasses a b m).rem ≠ 0 ∧ deg b ≤ deg (divPasses a b m).rem
    · have hdeg : deg (divPasses a b m).rem < n := (deg_lt_iff h.1).2 hr
      rw [divPass_of_open h]
      exact ⟨Nat.xor_lt_two_pow hq (one_shiftLeft_lt (by omega)),
        (xor_aligned_lt h.1 hb h.2).trans (Nat.pow_lt_pow_right (by omega) hdeg)⟩
    · rw [divPass_of_ended h]
      exact ⟨hq, hr⟩

theorem pdiv_lt {a b : Poly} {n : Nat} (hb : b ≠ 0) (ha : a < 2 ^ n) : pdiv a b < 2 ^ n := (divPasses_lt hb ha _).1

theorem divPass_rem_lt {b : Poly} {d : DivState} {k : Nat} (hb : b ≠ 0) (h : d.rem < 2 ^ max (deg b) k) :
    (divPass b d).rem < 2 ^ max (deg b) (k - 1) := by
  by_cases ho : d.rem ≠ 0 ∧ deg b ≤ deg d.rem
  · have hdeg : deg d.rem < max (deg b) k := (deg_lt_iff ho.1).2 h
    rw [divPass_of_open ho]
    exact (xor_aligned_lt ho.1 hb ho.2).trans_le (Nat.pow_le_pow_right (by omega) (by omega))
  · have hend : d.rem < 2 ^ deg b := by
      by_cases hz : d.rem = 0
      · exact hz ▸ Nat.two_pow_pos _
      · exact (deg_lt_iff hz).1 (Nat.lt_of_not_le fun hle => ho ⟨hz, hle⟩)
    rw [divPass_of_ended ho]
    exact hend.trans_le (Nat.pow_le_pow_right (by omega) (Nat.le_max_left _ _))

/-- Every pass takes a bit off the remainder, until it is shorter than the divisor. -/
theorem divPasses_rem_lt {a b : Poly} (hb : b ≠ 0) (m : Nat) :
    (divPasses a b m).rem < 2 ^ max (deg b) (bitlen a - m) := by
  induction m with
  | zero => exact (bitlen_le_iff.1 le_rfl).trans_le (Nat.pow_le_pow_right (by omega) (Nat.le_max_right _ _))
  | succ m ih => exact divPass_rem_lt hb ih

/-- The loop has ended after `bitlen(a)` passes: the remainder's degree is below the divisor's (R154). -/
theorem prem_lt_two_pow_deg (a : Poly) {b : Poly} (hb : b ≠ 0) : prem a b < 2 ^ deg b := by
  simpa [prem, pdivmod] using divPasses_rem_lt (a := a) hb (bitlen a)

theorem prem_lt (a : Poly) {b : Poly} (hb : b ≠ 0) : prem a b < b := (prem_lt_two_pow_deg a hb).trans_le (two_pow_deg_le hb)

/-! ### The derived constants (R212 to R218) -/

theorem barrett_lt {p : Poly} (hp : p ≠ 0) : barrett p < 2 ^ 65 := pdiv_lt hp (one_shiftLeft_lt (by omega))

/-- Every slot of the table derived from a generator that fits fits too. -/
theorem deriveTable_lt {p : Poly} {n : Nat} (hn : 65 ≤ n) (hp : p ≠ 0) (hfit : p < 2 ^ n) (j : SlotIdx) :
    (deriveTable p)[j] < 2 ^ n := by
  have hbar : barrett p < 2 ^ n := (barrett_lt hp).trans_le (Nat.pow_le_pow_right (by omega) hn)
  have hrem : powerRemainder 64 p < 2 ^ n := (prem_lt _ hp).trans hfit
  have hrefl (v : Poly) : brev v 32 < 2 ^ n := (brev_lt v 32).trans_le (Nat.pow_le_pow_right (by omega) (by omega))
  have hall : ∀ v ∈ deriveTable p, v < 2 ^ n := by
    simp [deriveTable, reflectedGenerator, barrettReflected, foldConstant, hfit, hbar, hrem, hrefl]
  exact hall _ (Vector.getElem_mem _)

end Sys2Proof.Machine
end

