-- ==== Sys2Proof/Proofs/EngineEffect.lean ====
section
/-! PROOF. What the engine's step on any word but a DERIVE can do: it records an error or writes one register, and what it
writes fits while the invariant holds. Both the invariant (O53) and the table's frame (O54) rest on this one case split. -/

namespace Sys2Proof.Machine

/-- `IMM16` holds no more than 65535, so what the decoder gives is well-formed (R122). -/
theorem wf_of_decode {w : Word} {i : Instr} (h : decode w = .cmd i) : i.wf = true := by
  obtain ⟨o, -, -, rfl⟩ := decode_eq_cmd_iff.1 h
  have himm : immFits (immField w) = true := decide_eq_true (Nat.le_of_lt_succ (w.extractLsb' 0 16).isLt)
  cases o <;> simp [Op.build, Instr.wf, himm]

theorem State.Inv.polyW_ge {s : State} (h : s.Inv) : 8224 ≤ s.cfg.polyW := h.cfg.2.1

/-- What is narrower than the least `POLY_W` fits in every register (R6). -/
theorem State.Inv.fits_of_lt {s : State} (h : s.Inv) {v : Poly} {k : Nat} (hv : v < 2 ^ k) (hk : k ≤ 8224) :
    v < 2 ^ s.cfg.polyW :=
  hv.trans_le (Nat.pow_le_pow_right (by omega) (hk.trans h.polyW_ge))

/-- The effect of a command other than DERIVE before it completes: an error, or a value that fits in one register. -/
inductive RegEffect (s : State) : State → Prop where
  | none : RegEffect s s
  | error (c : ErrCode) : RegEffect s (recordError c s.cmdl s)
  | reg (rd : RegIdx) (v : Poly) (h : s.Inv → v < 2 ^ s.cfg.polyW) : RegEffect s (s.writeReg rd v)

/-- The outcome is the completion of a command with such an effect. -/
def EndsInReg (s : State) (r : Host.Outcome State Fault Refusal) : Prop := ∃ u, r = .next (complete u) ∧ RegEffect s u

section Effects

variable {s : State} {rd : RegIdx}

theorem raise_endsInReg (c : ErrCode) : EndsInReg s (raise c s) := ⟨_, raise_eq c s, .error c⟩

theorem writeResult_endsInReg {v : Poly} (h : s.Inv → v < 2 ^ s.cfg.polyW) : EndsInReg s (writeResult rd v s) :=
  ⟨_, writeResult_eq rd v s, .reg rd v h⟩

theorem writeChecked_endsInReg (v : Poly) : EndsInReg s (writeChecked rd v s) := by
  unfold writeChecked
  split
  · exact raise_endsInReg _
  · next hw => exact writeResult_endsInReg fun _ => bitlen_le_iff.1 (Nat.not_lt.1 hw)

theorem withDivisor_endsInReg {d : Poly} {r : Host.Outcome State Fault Refusal} (h : d ≠ 0 → EndsInReg s r) :
    EndsInReg s (withDivisor d s r) := by
  unfold withDivisor
  split
  · exact raise_endsInReg _
  · next hd => exact h hd

theorem withFoldWidth_endsInReg (n : Nat) {r : Host.Outcome State Fault Refusal} (h : EndsInReg s r) :
    EndsInReg s (withFoldWidth n s r) := by
  unfold withFoldWidth
  split
  · exact raise_endsInReg _
  · exact h

theorem exec_prev_endsInReg (rs1 : RegIdx) (imm : Nat) : EndsInReg s (exec (.prev rd rs1 imm) s) := by
  rw [exec_prev_eq]
  split
  · exact raise_endsInReg _
  · next hw =>
    exact writeResult_endsInReg fun _ => (brev_lt _ imm).trans_le (Nat.pow_le_pow_right (by omega) (Nat.not_lt.1 hw))

theorem writeReflected_endsInReg (v : Poly) : EndsInReg s (writeResult rd (brev v 32) s) :=
  writeResult_endsInReg fun h => h.fits_of_lt (brev_lt v 32) (by omega)

end Effects

/-- Every well-formed command but DERIVE has such an effect; each value's bound is its function's. -/
theorem exec_endsInReg {i : Instr} (s : State) (hwf : i.wf = true) (hd : ∀ rs1, i ≠ .derive rs1) :
    EndsInReg s (exec i s) := by
  cases i with
  | nop => exact ⟨s, rfl, .none⟩
  | pli rd imm =>
    have himm : imm < 2 ^ 16 := Nat.lt_succ_of_le (of_decide_eq_true hwf)
    exact writeResult_endsInReg fun h => h.fits_of_lt himm (by omega)
  | pmov rd rs1 => exact writeResult_endsInReg fun h => h.reg_fits rs1
  | pxor rd rs1 rs2 => exact writeResult_endsInReg fun h => Nat.xor_lt_two_pow (h.reg_fits rs1) (h.reg_fits rs2)
  | pshl => exact writeChecked_endsInReg _
  | pshr rd rs1 imm => exact writeResult_endsInReg fun h => (Nat.shiftRight_le _ imm).trans_lt (h.reg_fits rs1)
  | pmask rd rs1 imm => exact writeResult_endsInReg fun h => (mask_le _ imm).trans_lt (h.reg_fits rs1)
  | prev rd rs1 imm => exact exec_prev_endsInReg rs1 imm
  | pmul => exact writeChecked_endsInReg _
  | pdiv rd rs1 rs2 =>
    exact withDivisor_endsInReg fun hb => writeResult_endsInReg fun h => pdiv_lt hb (h.reg_fits rs1)
  | prem rd rs1 rs2 =>
    exact withDivisor_endsInReg fun hb => writeResult_endsInReg fun h => (prem_lt _ hb).trans (h.reg_fits rs2)
  | gpolyr => exact writeReflected_endsInReg _
  | gbar rd rs1 =>
    exact withDivisor_endsInReg fun hp => writeResult_endsInReg fun h => h.fits_of_lt (barrett_lt hp) (by omega)
  | gbarr => exact withDivisor_endsInReg fun _ => writeReflected_endsInReg _
  | gfoldr rd rs1 imm => exact withDivisor_endsInReg fun _ => withFoldWidth_endsInReg imm (writeReflected_endsInReg _)
  | gremx rd rs1 imm =>
    exact withDivisor_endsInReg fun hp => writeResult_endsInReg fun h => (prem_lt _ hp).trans (h.reg_fits rs1)
  | derive rs1 => exact absurd rfl (hd rs1)

theorem engineStep_of_decode {s : State} {i : Instr} (h : decode s.cmdl = .cmd i) : engineStep s = exec i s := by
  rw [engineStep, h]

/-- The engine's step runs a DERIVE, or it has no more effect than an error or a register that fits. -/
theorem engineStep_derive_or_endsInReg (s : State) :
    (∃ rs1, decode s.cmdl = .cmd (.derive rs1)) ∨ EndsInReg s (engineStep s) := by
  cases h : decode s.cmdl with
  | illegal why =>
    right
    rw [engineStep, h]
    exact raise_endsInReg .illegal
  | cmd i =>
    by_cases hd : ∃ rs1, i = .derive rs1
    · obtain ⟨rs1, rfl⟩ := hd
      exact .inl ⟨rs1, rfl⟩
    · rw [engineStep_of_decode h]
      exact .inr (exec_endsInReg s (wf_of_decode h) fun rs1 e => hd ⟨rs1, e⟩)

end Sys2Proof.Machine
end

