-- ==== Sys2Proof/Proofs/Invariant.lean ====
section
/-! PROOF. The invariant holds at reset (O52) and every step keeps it (O53): one lemma for each shared operation, then for a
bus transaction, the engine's step and the three kinds of turn. -/

namespace Sys2Proof.Machine

/-! ### Reset (R53) -/

theorem resetOf_inv {c : Config} (hc : c.WellFormed) : (State.resetOf c).Inv where
  cfg := hc
  reg_fits i := by simp [State.resetOf, State.readReg]
  slot_fits j := by simp [State.resetOf, State.readSlot]
  table := .inl ⟨rfl, fun j => by simp [State.resetOf, State.readSlot]⟩
  no_err _ := ⟨rfl, rfl⟩
  err_code h := nomatch h
  last_cmd := rfl
  busy_not_done _ := rfl

/-- Settles O52: every element is 0 at reset, and 0 fits everywhere. -/
theorem invariantAtReset : Obligations.InvariantAtReset := by
  unfold Obligations.InvariantAtReset
  exact fun c hc => resetOf_inv hc

/-! ### The shared operations -/

section Keeps

variable {s : State}

/-- The interrupt enables, `ERR_OVF`, `DSEL`, the turns and the port's answer have no part in the invariant. -/
theorem State.Inv.with_free_fields (h : s.Inv) (doneIE errIE errOvf : Bool) (target : BitVec 8) (lmb : BitVec 16)
    (ainc : Bool) (ts : List Turn) (r : Option Response) :
    State.Inv { s with
      doneIE := doneIE, errIE := errIE, errOvf := errOvf, dselTarget := target, dselLimb := lmb, dselAinc := ainc,
      turns := ts, reply := r } :=
  ⟨h.cfg, h.reg_fits, h.slot_fits, h.table, h.no_err, h.err_code, h.last_cmd, h.busy_not_done⟩

theorem State.Inv.withTurns (h : s.Inv) (ts : List Turn) : (s.withTurns ts).Inv := h.with_free_fields _ _ _ _ _ _ _ _

theorem State.Inv.answer (h : s.Inv) (r : Response) : (s.answer r).Inv := h.with_free_fields _ _ _ _ _ _ _ _

theorem State.Inv.dselWrite (h : s.Inv) (d : Word) : (dselWrite d s).Inv := h.with_free_fields _ _ _ _ _ _ _ _

theorem State.Inv.bumpLimb (h : s.Inv) : (bumpLimb s).Inv := h.with_free_fields _ _ _ _ _ _ _ _

theorem State.Inv.blockReset (h : s.Inv) : (blockReset s).Inv := (resetOf_inv h.cfg).with_free_fields _ _ _ _ _ _ _ _

theorem State.Inv.ctrlWrite (h : s.Inv) (d : Word) : (ctrlWrite d s).Inv := by
  unfold Machine.ctrlWrite
  split
  · exact h.blockReset
  · exact h.with_free_fields _ _ _ _ _ _ _ _

theorem ErrCode.bits_range (c : ErrCode) : 1 ≤ c.bits.toNat ∧ c.bits.toNat ≤ 6 := by
  cases c <;> decide

theorem State.Inv.recordError (h : s.Inv) (c : ErrCode) (w : Word) : (recordError c w s).Inv := by
  unfold Machine.recordError
  split
  · exact ⟨h.cfg, h.reg_fits, h.slot_fits, h.table, (nomatch ·), fun _ => c.bits_range, h.last_cmd, h.busy_not_done⟩
  · exact h.with_free_fields _ _ _ _ _ _ _ _

theorem State.Inv.accessError (h : s.Inv) (c : ErrCode) (off : BitVec 12) (write : Bool) :
    (accessError c off write s).Inv := h.recordError c _

/-- Writing 1 to `ERR` clears the code and the information with it; otherwise the three stay (R85). -/
theorem State.Inv.statusWrite (h : s.Inv) (d : Word) : (statusWrite d s).Inv where
  cfg := h.cfg
  reg_fits := h.reg_fits
  slot_fits := h.slot_fits
  table := h.table
  no_err := by
    rw [statusWrite_err, statusWrite_errCode, statusWrite_errInfo]
    split
    · exact fun _ => ⟨rfl, rfl⟩
    · exact h.no_err
  err_code := by
    rw [statusWrite_err, statusWrite_errCode]
    split
    · exact (nomatch ·)
    · exact h.err_code
  last_cmd := h.last_cmd
  busy_not_done hb := by simpa using fun _ => h.busy_not_done hb

theorem State.Inv.acceptCommand (h : s.Inv) (w : Word) : (acceptCommand w s).Inv :=
  ⟨h.cfg, h.reg_fits, h.slot_fits, h.table, h.no_err, h.err_code, rfl, fun _ => rfl⟩

theorem State.Inv.complete (h : s.Inv) : (complete s).Inv :=
  ⟨h.cfg, h.reg_fits, h.slot_fits, h.table, h.no_err, h.err_code, h.last_cmd, fun hb => nomatch hb⟩

theorem State.Inv.writeReg (h : s.Inv) (rd : RegIdx) {v : Poly} (hv : v < 2 ^ s.cfg.polyW) : (s.writeReg rd v).Inv where
  cfg := h.cfg
  reg_fits i := by
    rw [State.readReg_writeReg]
    split
    · exact hv
    · exact h.reg_fits i
  slot_fits := h.slot_fits
  table := h.table
  no_err := h.no_err
  err_code := h.err_code
  last_cmd := h.last_cmd
  busy_not_done := h.busy_not_done

/-- The whole table is replaced by one that fits and is in order. -/
theorem State.Inv.writeTable (h : s.Inv) {t : Vector Poly 16} {valid : BitVec 16} (hfit : ∀ j : SlotIdx, t[j] < 2 ^ s.cfg.polyW)
    (hok : (s.writeTable t valid).TableOk) : (s.writeTable t valid).Inv :=
  ⟨h.cfg, h.reg_fits, hfit, hok, h.no_err, h.err_code, h.last_cmd, h.busy_not_done⟩

/-! ### Bus transactions -/

/-- A selected limb lies below `LIMBS`, so replacing it keeps the register's width (R80, R81). -/
theorem State.Inv.setLimb_fits (h : s.Inv) {i : RegIdx} (hsel : selected s = some (.reg i)) (d : Word) :
    setLimb (s.readReg i) s.dselLimb.toNat d < 2 ^ s.cfg.polyW := by
  have hlimb : s.dselLimb.toNat < s.cfg.polyW / 32 := by
    by_contra hge
    rw [selected, Config.limbs, if_neg hge] at hsel
    cases hsel
  exact setLimb_lt d (h.reg_fits i) (by omega)

theorem State.Inv.dataRead (h : s.Inv) : (dataRead s).1.Inv := by
  obtain hr | hr := dataRead_cases s
  · rw [hr]
    exact h.bumpLimb
  · rw [hr]
    exact h.accessError _ _ _

theorem State.Inv.dataWrite (h : s.Inv) (d : Word) : (dataWrite d s).Inv := by
  obtain ⟨i, hsel, hr⟩ | hr := dataWrite_cases d s
  · rw [hr]
    exact (h.writeReg i (h.setLimb_fits hsel d)).bumpLimb
  · rw [hr]
    exact h.accessError _ _ _

theorem State.Inv.busRead (h : s.Inv) (off : BitVec 12) : (busRead off s).1.Inv := by
  obtain ⟨-, -, hr⟩ | ⟨-, -, hr⟩ | ⟨-, -, hr⟩ := busRead_cases off s
  · rw [hr]
    exact h.accessError _ _ _
  · rw [hr]
    exact h.dataRead
  · rwa [hr]

theorem State.Inv.busWrite (h : s.Inv) (off : BitVec 12) (d : Word) : (busWrite off d s).Inv := by
  obtain ⟨-, -, hr⟩ | ⟨-, ⟨-, hr⟩ | ⟨-, hr⟩ | ⟨-, hr⟩ | ⟨-, hr⟩ | ⟨-, hr⟩ | ⟨-, -, -, -, -, hr⟩⟩ :=
    busWrite_cases off d s <;> rw [hr]
  · exact h.accessError _ _ _
  · exact h.ctrlWrite d
  · exact h.statusWrite d
  · exact h.acceptCommand d
  · exact h.dselWrite d
  · exact h.dataWrite d
  · exact h

/-! ### The engine's step -/

/-- A register fits, so the table derived from a non-zero one fits and is in order; from 0 it is cleared (R219). -/
theorem State.Inv.execDerive {t : State} (h : s.Inv) (rs1 : RegIdx) (ht : execDerive rs1 s = .next t) : t.Inv := by
  unfold Machine.execDerive at ht
  split at ht
  · have hclear : (s.writeTable (Vector.replicate 16 0) 0x0000#16).Inv :=
      h.writeTable (by simp) (.inl ⟨rfl, by simp⟩)
    cases ht
    exact (hclear.recordError _ _).complete
  · next hp =>
    have hslot0 : (deriveTable (s.readReg rs1))[(0 : SlotIdx)] = s.readReg rs1 := deriveTable_slot0 _
    have hderived : (s.writeTable (deriveTable (s.readReg rs1)) 0xFFFF#16).Inv := by
      refine h.writeTable (deriveTable_lt (by have := h.polyW_ge; omega) hp (h.reg_fits rs1)) (.inr ⟨rfl, ?_, fun j => ?_⟩)
      · rwa [State.readSlot_writeTable, hslot0]
      · rw [State.readSlot_writeTable, State.readSlot_writeTable, hslot0]
    cases ht
    exact hderived.complete

theorem State.Inv.regEffect {u : State} (h : s.Inv) (hu : RegEffect s u) : u.Inv := by
  cases hu with
  | none => exact h
  | error c => exact h.recordError c _
  | reg rd v hv => exact h.writeReg rd (hv h)

theorem State.Inv.engineStep {t : State} (h : s.Inv) (ht : engineStep s = .next t) : t.Inv := by
  obtain ⟨rs1, hd⟩ | ⟨u, hu, heff⟩ := engineStep_derive_or_endsInReg s
  · rw [engineStep_of_decode hd] at ht
    exact h.execDerive rs1 ht
  · cases hu.symm.trans ht
    exact (h.regEffect heff).complete

/-! ### Turns and steps -/

theorem State.Inv.engineTurn {t : State} (h : s.Inv) (ht : engineTurn s = .next t) : t.Inv := by
  cases hb : s.busy with
  | true =>
    rw [engineTurn_busy hb] at ht
    exact h.engineStep ht
  | false =>
    rw [engineTurn_idle hb] at ht
    cases ht
    exact h

theorem State.Inv.hostTurn {tr : Transaction} {t : State} (h : s.Inv) (ht : hostTurn tr s = .next t) : t.Inv := by
  obtain ⟨-, hr⟩ | ⟨-, -, hr⟩ | ⟨-, -, -, hr⟩ | ⟨-, -, v, -, hr⟩ := hostTurn_cases tr s <;> cases hr.symm.trans ht
  · exact h
  · exact (h.busRead _).answer _
  · exact (h.busWrite _ _).answer _

end Keeps

/-- Settles O53: each kind of turn keeps the invariant. -/
theorem everyStepKeepsTheInvariant : Obligations.EveryStepKeepsTheInvariant := by
  unfold Obligations.EveryStepKeepsTheInvariant
  intro s t h ht
  obtain ⟨-, hr⟩ | ⟨rest, -, hr⟩ | ⟨tr, rest, -, hr⟩ | ⟨rest, -, hr⟩ := step_cases s <;> rw [hr] at ht
  · exact h.engineTurn ht
  · exact (h.withTurns rest).engineTurn ht
  · exact (h.withTurns rest).hostTurn ht
  · cases ht
    exact (h.withTurns rest).blockReset

end Sys2Proof.Machine
end

