-- ==== Sys2Proof/Proofs/TableAndProgress.lean ====
section
/-! PROOF. What a turn leaves alone, and what follows for whole runs: only DERIVE or a reset changes the result table (O54),
and a pending command completes (O58). Of the host's transactions only a write of SRST disturbs either. -/

namespace Sys2Proof.Machine

open Sys2Proof.Claims

/-! ### The host's turn -/

/-- What every host transaction short of a reset keeps: the table, the parameters, the turns to come, a pending command. -/
structure HostKeeps (s u : State) : Prop where
  table : TableKept s u
  cfg : u.cfg = s.cfg
  turns : u.turns = s.turns
  busy : s.busy = true → u.busy = true

section Host

variable {s : State}

theorem HostKeeps.refl : HostKeeps s s := ⟨⟨rfl, fun _ => rfl⟩, rfl, rfl, id⟩

theorem HostKeeps.answer {u : State} (h : HostKeeps s u) (r : Response) : HostKeeps s (u.answer r) :=
  ⟨h.table, h.cfg, h.turns, h.busy⟩

theorem accessError_hostKeeps (c : ErrCode) (off : BitVec 12) (write : Bool) : HostKeeps s (accessError c off write s) where
  table := ⟨recordError_resValid .., fun _ => recordError_readSlot ..⟩
  cfg := recordError_cfg ..
  turns := recordError_turns ..
  busy h := (recordError_busy ..).trans h

theorem bumpLimb_hostKeeps : HostKeeps s (bumpLimb s) := ⟨⟨rfl, fun _ => rfl⟩, rfl, rfl, id⟩

theorem dataRead_hostKeeps : HostKeeps s (dataRead s).1 := by
  obtain hr | hr := dataRead_cases s <;> rw [hr]
  · exact bumpLimb_hostKeeps
  · exact accessError_hostKeeps _ _ _

theorem dataWrite_hostKeeps (d : Word) : HostKeeps s (dataWrite d s) := by
  obtain ⟨i, -, hr⟩ | hr := dataWrite_cases d s <;> rw [hr]
  · exact ⟨⟨rfl, fun _ => rfl⟩, rfl, rfl, id⟩
  · exact accessError_hostKeeps _ _ _

theorem busRead_hostKeeps (off : BitVec 12) : HostKeeps s (busRead off s).1 := by
  obtain ⟨-, -, hr⟩ | ⟨-, -, hr⟩ | ⟨-, -, hr⟩ := busRead_cases off s <;> rw [hr]
  · exact accessError_hostKeeps _ _ _
  · exact dataRead_hostKeeps
  · exact .refl

theorem ctrlWrite_of_srst {d : Word} (h : d.getLsbD 31 = true) : ctrlWrite d s = blockReset s := by
  rw [ctrlWrite, if_pos h]

theorem ctrlWrite_hostKeeps {d : Word} (h : d.getLsbD 31 = false) : HostKeeps s (ctrlWrite d s) := by
  rw [ctrlWrite, if_neg (by rw [h]; decide)]
  exact ⟨⟨rfl, fun _ => rfl⟩, rfl, rfl, id⟩

/-- A write to the window is one of `SRST`, or it keeps all this. -/
theorem busWrite_srst_or_hostKeeps (off : BitVec 12) (d : Word) :
    (off = 0x008#12 ∧ d.getLsbD 31 = true ∧ busWrite off d s = blockReset s) ∨ HostKeeps s (busWrite off d s) := by
  obtain ⟨-, -, hr⟩ | ⟨-, ⟨ho, hr⟩ | ⟨-, hr⟩ | ⟨-, hr⟩ | ⟨-, hr⟩ | ⟨-, hr⟩ | ⟨-, -, -, -, -, hr⟩⟩ :=
    busWrite_cases off d s <;> rw [hr]
  · exact .inr (accessError_hostKeeps _ _ _)
  · cases hd : d.getLsbD 31 with
    | true => exact .inl ⟨ho, rfl, ctrlWrite_of_srst hd⟩
    | false => exact .inr (ctrlWrite_hostKeeps hd)
  · exact .inr ⟨⟨rfl, fun _ => rfl⟩, rfl, rfl, id⟩
  · exact .inr ⟨⟨rfl, fun _ => rfl⟩, rfl, rfl, fun _ => rfl⟩
  · exact .inr ⟨⟨rfl, fun _ => rfl⟩, rfl, rfl, id⟩
  · exact .inr (dataWrite_hostKeeps d)
  · exact .inr .refl

/-- The transaction writes 1 to `SRST` (R86). -/
def SrstWrite (c : Config) (tr : Transaction) : Prop :=
  inWindow c tr.addr ∧ alignedWord tr ∧ offsetOf tr.addr = 0x008#12 ∧
    ∃ v, tr.access = .write v ∧ (BitVec.ofNat 32 v).getLsbD 31 = true

/-- A host's turn that is answered is a write of `SRST`, or it keeps all this. -/
theorem hostTurn_srst_or_hostKeeps {tr : Transaction} {u : State} (h : hostTurn tr s = .next u) :
    SrstWrite s.cfg tr ∧ u = (blockReset s).answer .okayWrite ∨ HostKeeps s u := by
  obtain ⟨-, hr⟩ | ⟨-, -, hr⟩ | ⟨-, -, -, hr⟩ | ⟨hw, ha, v, hv, hr⟩ := hostTurn_cases tr s <;> cases hr.symm.trans h
  · exact .inr .refl
  · exact .inr ((busRead_hostKeeps _).answer _)
  · obtain ⟨ho, hd, hb⟩ | hk := busWrite_srst_or_hostKeeps (s := s) (offsetOf tr.addr) (BitVec.ofNat 32 v)
    · exact .inl ⟨⟨hw, ha, ho, v, hv, hd⟩, by rw [hb]⟩
    · exact .inr (hk.answer _)

/-- A transaction that is not refused is answered (R73). -/
theorem hostTurn_answers {tr : Transaction} (h : (Turn.host tr).answered s.cfg) : ∃ u, hostTurn tr s = .next u := by
  obtain ⟨-, hr⟩ | ⟨hw, ha, -⟩ | ⟨-, -, -, hr⟩ | ⟨-, -, v, -, hr⟩ := hostTurn_cases tr s
  · exact ⟨_, hr⟩
  · exact absurd (h hw) ha
  · exact ⟨_, hr⟩
  · exact ⟨_, hr⟩

end Host

/-! ### The result table (R37) -/

theorem windowWrite_of_srstWrite {s : State} {tr : Transaction} {rest : List Turn} (h : SrstWrite s.cfg tr)
    (hs : s.turns = .host tr :: rest) : WindowWrite 0x008 31 s := by
  obtain ⟨a, n, acc⟩ := tr
  obtain ⟨hw, ⟨rfl, -⟩, ho, v, rfl, hv⟩ := h
  have hoff : a % 0x1000 = 0x008 := by simpa [offsetOf] using congrArg BitVec.toNat ho
  exact ⟨a, v, rest, hs, hw, hoff, hv⟩

theorem tableKept_of_regEffect {s u : State} (h : RegEffect s u) : TableKept s (complete u) := by
  cases h with
  | none => exact ⟨rfl, fun _ => rfl⟩
  | error c => exact ⟨recordError_resValid .., fun _ => recordError_readSlot ..⟩
  | reg rd v _ => exact ⟨rfl, fun _ => rfl⟩

/-- The engine's turn changes the table only when a pending DERIVE runs. -/
theorem engineTurn_derive_of_not_tableKept {s t : State} (ht : engineTurn s = .next t) (hk : ¬ TableKept s t) :
    s.busy = true ∧ ∃ rs1, decode s.cmdl = .cmd (.derive rs1) := by
  cases hb : s.busy with
  | false =>
    rw [engineTurn_idle hb] at ht
    cases ht
    exact absurd ⟨rfl, fun _ => rfl⟩ hk
  | true =>
    rw [engineTurn_busy hb] at ht
    obtain hd | ⟨u, hu, heff⟩ := engineStep_derive_or_endsInReg s
    · exact ⟨rfl, hd⟩
    · cases hu.symm.trans ht
      exact absurd (tableKept_of_regEffect heff) hk

/-- Settles O54: by the kinds of turn. -/
theorem onlyDeriveOrResetChangesResults : Obligations.OnlyDeriveOrResetChangesResults := by
  unfold Obligations.OnlyDeriveOrResetChangesResults
  intro s t ht hk
  obtain ⟨hs, hr⟩ | ⟨rest, hs, hr⟩ | ⟨tr, rest, hs, hr⟩ | ⟨rest, hs, -⟩ := step_cases s
  · exact .inl ⟨.inl hs, engineTurn_derive_of_not_tableKept (hr.symm.trans ht) hk⟩
  · exact .inl ⟨.inr ⟨rest, hs⟩, engineTurn_derive_of_not_tableKept (s := s.withTurns rest) (hr.symm.trans ht) hk⟩
  · obtain ⟨hsrst, -⟩ | hkeeps := hostTurn_srst_or_hostKeeps (hr.symm.trans ht)
    · exact .inr (.inr (windowWrite_of_srstWrite hsrst hs))
    · exact absurd hkeeps.table hk
  · exact .inr (.inl ⟨rest, hs⟩)

/-! ### Completion of a pending command (R36, R299) -/

theorem not_hostOnly_of_srstWrite {c : Config} {tr : Transaction} (h : SrstWrite c tr) : ¬ (Turn.host tr).hostOnly c := by
  obtain ⟨hw, -, ho, v, hacc, hv⟩ := h
  intro hh
  have hclear := hh.2 v hacc hw ho
  rw [hv] at hclear
  cases hclear

/-- Within `n` steps from `s` the command is pending no longer, and if no reset is among `ts` it has completed. -/
def EndsWithin (s : State) (ts : List Turn) (n : Nat) : Prop :=
  ∃ k t, k ≤ n ∧ core.run k s = .next t ∧ t.busy = false ∧
    ((∀ u ∈ ts, u = .engine ∨ u.hostOnly s.cfg) → t.done = true)

theorem endsWithin_of_step {s t : State} {ts : List Turn} {n : Nat} (ht : step s = .next t) (hb : t.busy = false)
    (hd : (∀ u ∈ ts, u = .engine ∨ u.hostOnly s.cfg) → t.done = true) : EndsWithin s ts (n + 1) :=
  ⟨1, t, by omega, core_run_succ 0 ht, hb, hd⟩

theorem endsWithin_of_engineStep {s s' : State} (ts : List Turn) (n : Nat) (h : step s = engineStep s') :
    EndsWithin s ts (n + 1) := by
  obtain ⟨u, hu, -⟩ := engineStep_effect s'
  exact endsWithin_of_step (h.trans hu) rfl fun _ => rfl

theorem EndsWithin.of_hostStep {s t : State} {tr : Turn} {rest : List Turn} {n : Nat} (ht : step s = .next t)
    (hc : t.cfg = s.cfg) (h : EndsWithin t rest n) : EndsWithin s (tr :: rest) (n + 1) := by
  obtain ⟨k, v, hk, hrun, hb, hd⟩ := h
  refine ⟨k + 1, v, by omega, (core_run_succ k ht).trans hrun, hb, fun hall => hd fun u hu => ?_⟩
  rw [hc]
  exact hall u (List.mem_cons_of_mem _ hu)

theorem pending_endsWithin {s : State} {ts : List Turn} (hs : s.turns = ts) (hb : s.busy = true)
    (hans : ∀ t ∈ ts, t.answered s.cfg) : EndsWithin s ts (ts.length + 1) := by
  induction ts generalizing s with
  | nil => exact endsWithin_of_engineStep _ _ (step_nil_busy hs hb)
  | cons tr rest ih =>
    obtain ⟨hfirst, hrest⟩ := List.forall_mem_cons.1 hans
    cases tr with
    | engine => exact endsWithin_of_engineStep _ _ (step_engine_busy hs hb)
    | reset =>
      refine endsWithin_of_step (step_reset hs) rfl fun hall => ?_
      obtain h | h := hall .reset List.mem_cons_self
      · cases h
      · exact h.elim
    | host tr =>
      obtain ⟨u, hu⟩ := hostTurn_answers (s := s.withTurns rest) hfirst
      have hstep : step s = .next u := (step_host hs).trans hu
      obtain ⟨hsrst, rfl⟩ | hk := hostTurn_srst_or_hostKeeps hu
      · refine endsWithin_of_step hstep rfl fun hall => ?_
        obtain h | h := hall _ List.mem_cons_self
        · cases h
        · exact absurd h (not_hostOnly_of_srstWrite hsrst)
      · have hcfg : u.cfg = s.cfg := hk.cfg
        exact (ih hk.turns (hk.busy hb) (hcfg ▸ hrest)).of_hostStep hstep hcfg

/-- Settles O58, by induction on the turns to come. -/
theorem pendingCommandCompletes : Obligations.PendingCommandCompletes := by
  unfold Obligations.PendingCommandCompletes
  exact fun s hb hans => pending_endsWithin rfl hb hans

end Sys2Proof.Machine
end

