-- ==== Sys2Proof/Proofs/StateSteps.lean ====
section
/-! PROOF. Single steps with the exact next state: the engine's on a decoded command (O5), both resets (O50, O51), writes to
`DSEL` (O42) and to offsets that cannot be written (O43). -/

namespace Sys2Proof.Machine

open Sys2Proof.Claims

/-- Settles O5. -/
theorem stepRunsTheDecodedCommand : Obligations.StepRunsTheDecodedCommand := by
  unfold Obligations.StepRunsTheDecodedCommand
  intro s i hb hd
  refine ⟨fun hs => ?_, fun rest hs => ?_⟩
  · exact (step_nil_busy hs hb).trans (engineStep_of_decode hd)
  · exact (step_engine_busy hs hb).trans (engineStep_of_decode (s := s.withTurns rest) hd)

/-! ### Reset (R53, R291) -/

/-- Every element has its reset value, whatever turns are to come and whatever the port last answered. -/
theorem atReset_resetOf_with (c : Config) (ts : List Turn) (r : Option Response) :
    AtReset c { State.resetOf c with turns := ts, reply := r } where
  cfg := rfl
  x i := by simp [State.resetOf, State.readReg]
  res j := by simp [State.resetOf, State.readSlot]
  resValid := rfl
  enables := ⟨rfl, rfl⟩
  flags := ⟨rfl, rfl, rfl, rfl⟩
  errCode := rfl
  errInfo := rfl
  cmdl := rfl
  lastCmd := rfl
  dsel := ⟨rfl, rfl, rfl⟩
  idWord := rfl
  cfgWord := rfl
  irq := rfl

/-- Settles O50. -/
theorem resetValues : Obligations.ResetValues := by
  unfold Obligations.ResetValues
  have hreset (c : Config) : AtReset c (State.resetOf c) := atReset_resetOf_with c [] none
  exact ⟨hreset _, by decide, by decide, hreset⟩

theorem busWrite_srst {d : Word} (s : State) (hd : d.getLsbD 31 = true) : busWrite 0x008#12 d s = blockReset s := by
  obtain ⟨-, hg, -⟩ | ⟨-, ⟨-, hr⟩ | ⟨h, -⟩ | ⟨h, -⟩ | ⟨h, -⟩ | ⟨h, -⟩ | ⟨h, -⟩⟩ := busWrite_cases 0x008#12 d s
  · exact absurd hg (by decide)
  · exact hr.trans (ctrlWrite_of_srst hd)
  all_goals exact absurd h (by decide)

/-- Settles O51. -/
theorem bothResetSourcesSetEveryElement : Obligations.BothResetSourcesSetEveryElement := by
  unfold Obligations.BothResetSourcesSetEveryElement
  intro s rest
  refine ⟨fun hs => ⟨_, step_reset hs, atReset_resetOf_with s.cfg rest s.reply, rfl, rfl⟩, fun d hc hd hs => ?_⟩
  have hstep := step_wr hc (by omega) (by omega) hs
  rw [busWrite_srst _ hd] at hstep
  exact ⟨_, hstep, atReset_resetOf_with s.cfg rest (some .okayWrite), rfl, rfl⟩

/-! ### Writes (R79) -/

theorem busWrite_dsel {s : State} (d : Word) (hb : s.busy = false) : busWrite 0x018#12 d s = dselWrite d s := by
  simp [busWrite, hb]

/-- The three fields of `DSEL` as written are the written word with its reserved bits 30 to 24 cleared (R48). -/
theorem dsel_fields_eq_and (d : Word) :
    bit (d.getLsbD 31) ++ 0#7 ++ d.extractLsb' 8 16 ++ d.extractLsb' 0 8 = d &&& 0x80FFFFFF#32 := by
  refine BitVec.eq_of_getLsbD_eq fun i hi => ?_
  have hmask : ∀ i < 32, (0x80FFFFFF#32).getLsbD i = decide (i < 24 ∨ i = 31) := by decide
  rw [BitVec.getLsbD_and, hmask i hi]
  simp only [BitVec.getLsbD_append, BitVec.getLsbD_extractLsb', bit]
  obtain htarget | hlimb | hreserved | rfl : i < 8 ∨ (8 ≤ i ∧ i < 24) ∨ (24 ≤ i ∧ i < 31) ∨ i = 31 := by omega
  · simp [htarget, show i < 24 by omega]
  · simp [show ¬ i < 8 by omega, show i - 8 < 16 by omega, show 8 + (i - 8) = i by omega, hlimb.2]
  · simp [show ¬ i < 8 by omega, show ¬ i - 8 < 16 by omega, show i - 8 - 16 < 7 by omega, show ¬ i < 24 by omega,
      show i ≠ 31 by omega]
  · simp

/-- Settles O42. -/
theorem dselReadsBackAsWritten : Obligations.DselReadsBackAsWritten := by
  unfold Obligations.DselReadsBackAsWritten
  intro s d rest hc hb hs
  have hstep := step_wr hc (by omega) (by omega) hs
  rw [busWrite_dsel (s := s.withTurns rest) d hb] at hstep
  exact ⟨_, hstep, rfl, dsel_fields_eq_and d⟩

theorem ofNat_eq_ofNat_iff {a b : Nat} (ha : a < 0x1000) (hb : b < 0x1000) :
    BitVec.ofNat 12 a = BitVec.ofNat 12 b ↔ a = b := by
  rw [← BitVec.toNat_inj, BitVec.toNat_ofNat, BitVec.toNat_ofNat, Nat.mod_eq_of_lt ha, Nat.mod_eq_of_lt hb]

/-- The model's GATED set and R92's are the same on word offsets. -/
theorem gated_iff {off : Nat} (h : WordOffset off) : gated (BitVec.ofNat 12 off) = true ↔ GatedOffset off := by
  obtain ⟨hlt, h4⟩ := h
  have heq (k : Nat) (hk : k < 0x1000) : (BitVec.ofNat 12 off == BitVec.ofNat 12 k) = true ↔ off = k :=
    beq_iff_eq.trans (ofNat_eq_ofNat_iff hlt hk)
  simp only [gated, GatedOffset, Bool.or_eq_true, Bool.and_eq_true, decide_eq_true_eq, BitVec.toNat_ofNat,
    Nat.mod_eq_of_lt hlt, heq 0x010 (by omega), heq 0x018 (by omega), heq 0x01C (by omega), heq 0x020 (by omega)]
  omega

/-- A write that the BUSY gate lets through, to none of the five registers that can be written, has no effect (R77). -/
theorem busWrite_ignored {off : Nat} {s : State} (d : Word) (hw : WordOffset off) (hidle : s.busy = false ∨ ¬ GatedOffset off)
    (hoff : off ≠ 0x008 ∧ off ≠ 0x00C ∧ off ≠ 0x010 ∧ off ≠ 0x018 ∧ off ≠ 0x01C) :
    busWrite (BitVec.ofNat 12 off) d s = s := by
  obtain ⟨h1, h2, h3, h4, h5⟩ := hoff
  have heq {k : Nat} (hk : k < 0x1000) (e : BitVec.ofNat 12 off = BitVec.ofNat 12 k) : off = k :=
    (ofNat_eq_ofNat_iff hw.1 hk).1 e
  obtain ⟨hb, hg, -⟩ | ⟨-, ⟨e, -⟩ | ⟨e, -⟩ | ⟨e, -⟩ | ⟨e, -⟩ | ⟨e, -⟩ | ⟨-, -, -, -, -, hr⟩⟩ :=
    busWrite_cases (BitVec.ofNat 12 off) d s
  · obtain hn | hn := hidle
    · exact Bool.noConfusion (hb.symm.trans hn)
    · exact absurd ((gated_iff hw).1 hg) hn
  · exact absurd (heq (by omega) e) h1
  · exact absurd (heq (by omega) e) h2
  · exact absurd (heq (by omega) e) h3
  · exact absurd (heq (by omega) e) h4
  · exact absurd (heq (by omega) e) h5
  · exact hr

/-- Settles O43. -/
theorem readOnlyOffsetsIgnoreWrites : Obligations.ReadOnlyOffsetsIgnoreWrites := by
  unfold Obligations.ReadOnlyOffsetsIgnoreWrites
  intro s d off rest hc hw hoff hidle hs
  rw [step_wr hc hw.1 hw.2 hs, busWrite_ignored (s := s.withTurns rest) d hw hidle hoff]
  rfl

end Sys2Proof.Machine
end

