-- ==== Sys2Proof/Proofs/RegisterReads.lean ====
section
/-! PROOF. A read of every offset but DATA returns the register's fields and has no side effect (O34): each register word of
the model is its fields written side by side, and the two views of a slot are its low word and that word reversed. -/

namespace Sys2Proof.Machine

open Sys2Proof.Claims

/-! ### Words as fields (R42 to R48) -/

/-- A field shifted above another one is the two side by side. -/
theorem shiftLeft_or_eq_append {n m : Nat} (x : BitVec n) (y : BitVec m) :
    x.setWidth (n + m) <<< m ||| y.setWidth (n + m) = x ++ y := by
  ext i hi
  simp only [BitVec.getElem_or, BitVec.getElem_shiftLeft, BitVec.getElem_setWidth, BitVec.getElem_append]
  grind

theorem cfgWord_eq_fields (c : Config) : cfgWord c = 16#8 ++ 8#8 ++ BitVec.ofNat 16 (c.polyW / 32) :=
  shiftLeft_or_eq_append 0x1008#16 (BitVec.ofNat 16 c.limbs)

theorem ctrlWord_eq_fields (s : State) : ctrlWord s = 0#30 ++ bit s.errIE ++ bit s.doneIE := by
  unfold ctrlWord
  generalize s.errIE = e
  generalize s.doneIE = d
  revert e d
  decide

theorem statusWord_eq_fields (s : State) :
    statusWord s = 0#16 ++ s.errCode ++ 0#4 ++ bit s.errOvf ++ bit s.err ++ bit s.done ++ bit s.busy := by
  unfold statusWord bitAt bit
  ext i hi
  simp only [BitVec.getElem_or, BitVec.getElem_shiftLeft, BitVec.getElem_setWidth]
  grind

theorem dselWord_eq_fields (s : State) : dselWord s = bit s.dselAinc ++ 0#7 ++ s.dselLimb ++ s.dselTarget := by
  unfold dselWord bitAt bit
  ext i hi
  simp only [BitVec.getElem_or, BitVec.getElem_shiftLeft, BitVec.getElem_setWidth]
  grind

theorem resValid_eq_fields (v : BitVec 16) : v.setWidth 32 = 0#16 ++ v := by
  rw [← shiftLeft_or_eq_append]
  simp

/-! ### The views of a slot (R83, R151, R220) -/

theorem testBit_brevBits_succ (m w n i : Nat) :
    (brevBits m w (n + 1)).testBit i = ((brevBits m w n).testBit i || (decide (w - 1 - n = i) && m.testBit n)) := by
  rw [brevBits]
  split
  · next hset => simp [Nat.testBit_or, Nat.one_shiftLeft, Nat.testBit_two_pow, hset]
  · next hclear => simp [hclear]

/-- The loop of R151 over the bits below `n` has set the bits from `w - n` up, each to the bit it mirrors. -/
theorem testBit_brevBits (m w i : Nat) {n : Nat} (hn : n ≤ w) :
    (brevBits m w n).testBit i = (decide (i < w ∧ w ≤ i + n) && m.testBit (w - 1 - i)) := by
  induction n with
  | zero => simp [brevBits, show ¬(i < w ∧ w ≤ i) by omega]
  | succ n ih =>
    rw [testBit_brevBits_succ, ih (by omega)]
    by_cases hi : w - 1 - n = i
    · subst hi
      simp [show w - 1 - (w - 1 - n) = n by omega, show ¬ w ≤ w - 1 - n + n by omega,
        show w ≤ w - 1 - n + (n + 1) by omega, show w - 1 - n < w by omega]
    · simp [hi, show w ≤ i + (n + 1) ↔ w ≤ i + n by omega]

theorem testBit_brev (a : Poly) {w i : Nat} (h : i < w) : (brev a w).testBit i = a.testBit (w - 1 - i) := by
  rw [brev, testBit_brevBits _ _ _ le_rfl, mask_eq_mod, Nat.testBit_mod_two_pow]
  simp [h, show w - 1 - i < w by omega]

theorem viewMasked_eq_ofNat (v : Poly) : viewMasked v = BitVec.ofNat 32 v := by
  rw [viewMasked, mask_eq_mod, ← BitVec.toNat_ofNat, BitVec.ofNat_toNat, BitVec.setWidth_eq]

theorem viewReversed_eq_reverse (v : Poly) : viewReversed v = (BitVec.ofNat 32 v).reverse := by
  refine BitVec.eq_of_getLsbD_eq fun i hi => ?_
  rw [viewReversed, BitVec.getLsbD_ofNat, testBit_brev v hi, BitVec.getLsbD_reverse, BitVec.getMsbD,
    BitVec.getLsbD_ofNat]
  simp [hi, show 31 - i < 32 by omega]

theorem registerWord_view {off : Nat} (s : State) (h : 0x100 ≤ off ∧ off < 0x180) :
    registerWord s off =
      if off % 8 = 0 then BitVec.ofNat 32 (s.readSlot ⟨(off - 0x100) / 8, by omega⟩)
      else (BitVec.ofNat 32 (s.readSlot ⟨(off - 0x100) / 8, by omega⟩)).reverse := by
  unfold registerWord
  rw [if_neg (by omega), if_neg (by omega), if_neg (by omega), if_neg (by omega), if_neg (by omega), if_neg (by omega),
    if_neg (by omega), if_neg (by omega), dif_pos h]

/-- In the RESVIEW block the bits 6 to 3 of the offset are the slot's number, and bit 2 chooses the view. -/
theorem viewRead_eq_registerWord {off : Nat} (s : State) (hw : WordOffset off) (h : 0x100 ≤ off ∧ off < 0x180) :
    viewRead (BitVec.ofNat 12 off) s = registerWord s off := by
  obtain ⟨hlt, h4⟩ := hw
  have hslot : ((BitVec.ofNat 12 off).extractLsb' 3 4).toFin = (⟨(off - 0x100) / 8, by omega⟩ : SlotIdx) := by
    apply Fin.ext
    simp only [BitVec.val_toFin, BitVec.extractLsb'_toNat, BitVec.toNat_ofNat, Nat.shiftRight_eq_div_pow]
    omega
  have hbit : (BitVec.ofNat 12 off).getLsbD 2 = decide (off % 8 ≠ 0) := by
    rw [BitVec.getLsbD_ofNat, Nat.testBit_eq_decide_div_mod_eq]
    simp only [Nat.reduceLT, decide_true, Bool.true_and, decide_eq_decide]
    omega
  rw [registerWord_view s h, viewRead, hslot, hbit, viewMasked_eq_ofNat, viewReversed_eq_reverse]
  by_cases h8 : off % 8 = 0 <;> simp [h8]

/-! ### The read (R78) -/

/-- A read that the BUSY gate lets through, of any offset but DATA. -/
theorem busRead_eq_registerWord {off : Nat} {s : State} (hw : WordOffset off) (hdata : off ≠ 0x01C)
    (hidle : s.busy = false ∨ ¬ GatedOffset off) : busRead (BitVec.ofNat 12 off) s = (s, registerWord s off) := by
  have hgate : ¬(s.busy = true ∧ gated (BitVec.ofNat 12 off) = true) := by
    rw [gated_iff hw]
    rintro ⟨hb, hg⟩
    obtain hn | hn := hidle
    · exact Bool.noConfusion (hb.symm.trans hn)
    · exact hn hg
  have hoff : (BitVec.ofNat 12 off).toNat = off := Nat.mod_eq_of_lt hw.1
  rw [busRead, if_neg hgate, hoff]
  split
  · rfl
  · rw [cfgWord_eq_fields]; rfl
  · rw [ctrlWord_eq_fields]; rfl
  · rw [statusWord_eq_fields]; rfl
  · rfl
  · rfl
  · rw [dselWord_eq_fields]; rfl
  · exact absurd rfl hdata
  · rw [resValid_eq_fields]; rfl
  · split
    · next hview => rw [viewRead_eq_registerWord s hw hview]
    · next h0 h1 h2 h3 h4 h5 h6 h7 h8 hview =>
      unfold registerWord
      rw [if_neg h0, if_neg h1, if_neg h2, if_neg h3, if_neg h4, if_neg h5, if_neg h6, if_neg h8, dif_neg hview]

/-- Settles O34: the read's state and data are both given by `busRead_eq_registerWord`. -/
theorem registersReadAsTheirFields : Obligations.RegistersReadAsTheirFields := by
  unfold Obligations.RegistersReadAsTheirFields
  intro s off rest hc hw hdata hidle hs
  rw [step_rd hc hw.1 hw.2 hs, busRead_eq_registerWord (s := s.withTurns rest) hw hdata hidle]
  rfl

end Sys2Proof.Machine
end

