-- ==== Sys2Proof/Proofs/BusSteps.lean ====
section
/-! PROOF. Which transactions the port answers (O33), writes to the control registers (O39, O40, O41, O44), byte lanes (O45). -/

namespace Sys2Proof.Machine

open Sys2Proof.Claims

/-! ### Size and alignment (R73, R74) -/

theorem alignedWord_iff (t : Transaction) : alignedWord t ↔ t.size = 4 ∧ t.addr % 4 = 0 := by
  rw [alignedWord, offsetOf, BitVec.toNat_ofNat, Nat.mod_mod_of_dvd _ (by decide : 4 ∣ 2 ^ 12)]

theorem portAccess_refused {t : Transaction} (s : State) (h : ¬ alignedWord t) : portAccess t s = (s, .error) := by
  rw [portAccess, if_neg h]

/-- Settles O33, by the four cases of a host's turn. -/
theorem onlyAlignedWordsInTheWindowAreAnswered : Obligations.OnlyAlignedWordsInTheWindowAreAnswered := by
  unfold Obligations.OnlyAlignedWordsInTheWindowAreAnswered
  intro s t rest hs hin
  refine ⟨fun hbad => ?_, fun hgood => ?_⟩
  · have hna : ¬ alignedWord t := by
      rw [alignedWord_iff]
      omega
    exact ⟨(step_host hs).trans (hostTurn_error (s := s.withTurns rest) hin hna), portAccess_refused s hna⟩
  · rw [step_host hs]
    obtain ⟨hout, -⟩ | ⟨-, hna, -⟩ | ⟨-, -, hacc, hr⟩ | ⟨-, -, v, hacc, hr⟩ := hostTurn_cases t (s.withTurns rest)
    · exact absurd hin hout
    · exact absurd ((alignedWord_iff t).2 hgood) hna
    · exact ⟨_, hr, .inl ⟨hacc, _, rfl⟩⟩
    · exact ⟨_, hr, .inr ⟨⟨v, hacc⟩, rfl⟩⟩

/-! ### Refused accesses (R256, R258, R259) -/

theorem recordError_recorded (c : ErrCode) (w : Word) (s : State) : ErrorRecorded c.bits w s (recordError c w s) := by
  refine ⟨recordError_err c w s, fun h => ?_, fun h => ?_⟩ <;> simp [h]

/-- An access that records an error changes the error fields, the schedule and the port's answer, and nothing else. -/
theorem accessError_answer (c : ErrCode) (off : BitVec 12) (write : Bool) (s : State) (rest : List Turn) (r : Response) :
    let t := (accessError c off write (s.withTurns rest)).answer r
    ErrorRecorded c.bits (accessInfo off write) s t ∧ RegsKept s t ∧ TableKept s t ∧ t.busy = s.busy ∧ t.done = s.done ∧
      ControlKept (answered s rest r) t :=
  ⟨recordError_recorded c _ (s.withTurns rest), fun _ => recordError_readReg ..,
    ⟨recordError_resValid .., fun _ => recordError_readSlot ..⟩, recordError_busy .., recordError_done ..,
    ⟨recordError_cfg .., recordError_doneIE .., recordError_errIE .., recordError_cmdl .., recordError_lastCmd ..,
      recordError_dselTarget .., recordError_dselLimb .., recordError_dselAinc .., recordError_turns .., rfl⟩⟩

/-! ### Writes to the control registers (R84 to R86) -/

theorem busWrite_gated {off : BitVec 12} {s : State} (d : Word) (hb : s.busy = true) (hg : gated off = true) :
    busWrite off d s = accessError .busy off true s := by
  rw [busWrite, if_pos ⟨hb, hg⟩]

theorem busWrite_ctrl (d : Word) (s : State) : busWrite 0x008#12 d s = ctrlWrite d s := by
  rw [busWrite, if_neg fun h => absurd h.2 (by decide)]
  rfl

theorem busWrite_status (d : Word) (s : State) : busWrite 0x00C#12 d s = statusWrite d s := by
  rw [busWrite, if_neg fun h => absurd h.2 (by decide)]
  rfl

theorem busWrite_cmd {s : State} (d : Word) (hb : s.busy = false) : busWrite 0x010#12 d s = acceptCommand d s := by
  simp [busWrite, hb]

theorem ctrlWrite_of_not_srst {d : Word} (s : State) (h : d.getLsbD 31 = false) :
    ctrlWrite d s = { s with doneIE := d.getLsbD 0, errIE := d.getLsbD 1 } := by
  rw [ctrlWrite, if_neg (by rw [h]; decide)]

/-- Settles O39: `CMD` is GATED, so the two values of `BUSY` are its two cases. -/
theorem cmdWriteIssuesAnyWord : Obligations.CmdWriteIssuesAnyWord := by
  unfold Obligations.CmdWriteIssuesAnyWord
  intro s d rest hc hs
  rw [step_wr hc (by omega) (by omega) hs]
  refine ⟨fun hb => ?_, fun hb => ?_⟩
  · rw [busWrite_cmd (s := s.withTurns rest) d hb]
    rfl
  · rw [busWrite_gated (s := s.withTurns rest) d hb (by decide)]
    obtain ⟨herr, hregs, htable, hbusy, hdone, hctrl⟩ := accessError_answer .busy 0x010#12 true s rest .okayWrite
    exact ⟨_, rfl, herr, hregs, htable, hbusy.trans hb, hdone, hctrl⟩

/-- Settles O40: `STATUS` is not GATED, so its write is `statusWrite` whatever `BUSY` is. -/
theorem statusWriteClearsFlags : Obligations.StatusWriteClearsFlags := by
  unfold Obligations.StatusWriteClearsFlags
  intro s d rest hc hs
  rw [step_wr hc (by omega) (by omega) hs, busWrite_status]
  have hclear (b x : Bool) : (if b then false else x) = (x && !b) := by cases b <;> simp
  exact ⟨_, rfl, rfl, hclear .., hclear .., hclear .., fun h => ⟨if_pos h, if_pos h⟩,
    fun h => ⟨if_neg (by rw [h]; decide), if_neg (by rw [h]; decide)⟩, fun _ => rfl, ⟨rfl, fun _ => rfl⟩,
    ⟨rfl, rfl, rfl, rfl, rfl, rfl, rfl, rfl, rfl, rfl⟩⟩

/-- Settles O41, by the two values of `SRST`. -/
theorem ctrlWriteStoresEnablesOrResets : Obligations.CtrlWriteStoresEnablesOrResets := by
  unfold Obligations.CtrlWriteStoresEnablesOrResets
  intro s d rest hc hs
  rw [step_wr hc (by omega) (by omega) hs, busWrite_ctrl]
  refine ⟨fun hd => ?_, fun hd => ?_⟩
  · rw [ctrlWrite_of_srst hd]
    rfl
  · rw [ctrlWrite_of_not_srst _ hd]
    rfl

/-- A flag that was cleared is cleared again, and one that was kept is kept. -/
theorem statusWrite_statusWrite (d : Word) (s : State) : statusWrite d (statusWrite d s) = statusWrite d s := by
  have hsame {α : Type} (b : Bool) (zero v : α) : (if b then zero else if b then zero else v) = if b then zero else v := by
    cases b <;> rfl
  simp only [statusWrite, hsame]

/-- Settles O44: none of the three writes reads what it stores. -/
theorem controlWritesAreIdempotent : Obligations.ControlWritesAreIdempotent := by
  unfold Obligations.ControlWritesAreIdempotent
  rintro s d off (rfl | ⟨rfl, hd⟩ | ⟨rfl, hb⟩)
  · rw [busWrite_status, busWrite_status, statusWrite_statusWrite]
  · rw [busWrite_ctrl, busWrite_ctrl, ctrlWrite_of_not_srst _ hd, ctrlWrite_of_not_srst _ hd]
  · rw [busWrite_dsel d hb, busWrite_dsel (s := dselWrite d s) d hb]
    rfl

/-! ### Byte lanes (R75) -/

theorem getLsbD_byteLane (w : Word) (k : Fin 4) {j : Nat} (h : j < 8) :
    (byteLane w k).getLsbD j = w.getLsbD (8 * k.val + j) := by
  simp [byteLane, h]

theorem wordOfLanes_byteLane (w : Word) :
    wordOfLanes (byteLane w 0) (byteLane w 1) (byteLane w 2) (byteLane w 3) = w := by
  change w.extractLsb' 24 8 ++ w.extractLsb' 16 8 ++ w.extractLsb' 8 8 ++ w.extractLsb' 0 8 = w
  rw [BitVec.extractLsb'_append_extractLsb'_eq_extractLsb' (show 24 = 16 + 8 by rfl),
    BitVec.extractLsb'_append_extractLsb'_eq_extractLsb' (show 16 = 8 + 8 by rfl),
    BitVec.extractLsb'_append_extractLsb'_eq_extractLsb' (show 8 = 0 + 8 by rfl)]
  exact BitVec.extractLsb'_eq_self

/-- Settles O45: neighbouring lanes join to a longer field of the word. -/
theorem busWordsAreLittleEndian : Obligations.BusWordsAreLittleEndian := by
  unfold Obligations.BusWordsAreLittleEndian
  exact fun w => ⟨fun k j hj => getLsbD_byteLane w k hj, wordOfLanes_byteLane w⟩

end Sys2Proof.Machine
end

