-- ==== Sys2Proof/Proofs/DataWindow.lean ====
section
/-! PROOF. The DATA window: limbs of a value bit by bit (O37), a DATA read (O35), a DATA write (O36). -/

namespace Sys2Proof.Machine

open Sys2Proof.Claims

/-! ### Limbs (R76, R81) -/

theorem getLsbD_limb (v : Poly) (k : Nat) {i : Nat} (h : i < 32) : (limb v k).getLsbD i = v.testBit (32 * k + i) := by
  rw [limb, BitVec.getLsbD_ofNat, Nat.testBit_shiftRight, decide_eq_true h, Bool.true_and]

/-- The bits of limb `k` are the data's, the others are the value's. -/
theorem testBit_setLimb (v : Poly) (k : Nat) (d : Word) (n : Nat) :
    (setLimb v k d).testBit n =
      if 32 * k ≤ n ∧ n < 32 * k + 32 then d.getLsbD (n - 32 * k) else v.testBit n := by
  have hmask : ((2 ^ 32 - 1) <<< (32 * k)).testBit n = decide (32 * k ≤ n ∧ n < 32 * k + 32) := by
    rw [Nat.testBit_shiftLeft, Nat.testBit_two_pow_sub_one, ← Bool.decide_and, decide_eq_decide]
    omega
  rw [setLimb, andNot, Nat.testBit_or, Nat.testBit_xor, Nat.testBit_and, hmask, Nat.testBit_shiftLeft, BitVec.testBit_toNat]
  by_cases h : 32 * k ≤ n ∧ n < 32 * k + 32
  · simp [h]
  · have hout : (decide (32 * k ≤ n) && d.getLsbD (n - 32 * k)) = false := by
      by_cases hlow : 32 * k ≤ n
      · rw [BitVec.getLsbD_of_ge d _ (by omega), Bool.and_false]
      · simp [hlow]
    rw [hout]
    simp [h]

theorem limb_setLimb_same (v : Poly) (k : Nat) (d : Word) : limb (setLimb v k d) k = d := by
  refine BitVec.eq_of_getLsbD_eq fun i hi => ?_
  rw [getLsbD_limb _ _ hi, testBit_setLimb, if_pos (by omega), Nat.add_sub_cancel_left]

theorem limb_setLimb_ne (v : Poly) {j k : Nat} (d : Word) (h : j ≠ k) : limb (setLimb v k d) j = limb v j := by
  refine BitVec.eq_of_getLsbD_eq fun i hi => ?_
  rw [getLsbD_limb _ _ hi, getLsbD_limb _ _ hi, testBit_setLimb, if_neg (by omega)]

/-- Settles O37, bit by bit; the bound is `setLimb_lt`. -/
theorem limbReadAfterLimbWrite : Obligations.LimbReadAfterLimbWrite := by
  unfold Obligations.LimbReadAfterLimbWrite
  exact fun v k j d => ⟨limb_setLimb_same v k d, limb_setLimb_ne v d, fun n hk hv => setLimb_lt d hv (by omega)⟩

/-! ### The selection (R48, R80) -/

/-- The value a target names. -/
def WindowTarget.value (s : State) : WindowTarget → Poly
  | .reg i => s.readReg i
  | .slot j => s.readSlot j

theorem windowTarget_of_lt {t : BitVec 8} (h : t.toNat < 8) : windowTarget t = some (.reg ⟨t.toNat, h⟩) := by
  rw [windowTarget, dif_pos h]

theorem windowTarget_not_reg {t : BitVec 8} (h : 8 ≤ t.toNat) (i : RegIdx) : windowTarget t ≠ some (.reg i) := by
  rw [windowTarget, dif_neg (by omega)]
  split <;> simp

theorem selectedValue_eq (s : State) : selectedValue s = (windowTarget s.dselTarget).map (WindowTarget.value s) := by
  unfold selectedValue windowTarget
  by_cases hreg : s.dselTarget.toNat < 8
  · rw [dif_pos (by omega), dif_pos hreg]
    rfl
  · by_cases hslot : 16 ≤ s.dselTarget.toNat ∧ s.dselTarget.toNat < 32
    · rw [dif_neg (by omega), dif_pos (by omega), dif_neg hreg, dif_pos hslot]
      rfl
    · rw [dif_neg (by omega), dif_neg (by omega), dif_neg hreg, dif_neg hslot]
      rfl

theorem selected_of_lt {s : State} (h : s.dselLimb.toNat < s.cfg.polyW / 32) : selected s = windowTarget s.dselTarget :=
  if_pos h

theorem selected_of_ge {s : State} (h : s.cfg.polyW / 32 ≤ s.dselLimb.toNat) : selected s = none :=
  if_neg (Nat.not_lt.2 h)

theorem bumpLimb_eq (s : State) : bumpLimb s =
    { s with dselLimb := if s.dselAinc then BitVec.ofNat 16 (s.dselLimb.toNat + 1) else s.dselLimb } := by
  have hnext : BitVec.ofNat 16 (s.dselLimb.toNat + 1) = s.dselLimb + 1#16 := by
    rw [BitVec.ofNat_add, BitVec.ofNat_toNat, BitVec.setWidth_eq]
  rw [bumpLimb, hnext]

/-! ### DATA reads (R80) -/

theorem busRead_data {s : State} (hb : s.busy = false) : busRead 0x01C#12 s = dataRead s := by
  rw [busRead, if_neg (by simp [hb])]
  rfl

theorem dataRead_of_selected {s : State} {w : WindowTarget} (h : selected s = some w) :
    dataRead s = (bumpLimb s, BitVec.ofNat 32 (w.value s / 2 ^ (32 * s.dselLimb.toNat))) := by
  rw [← Nat.shiftRight_eq_div_pow]
  cases w with
  | reg i => exact dataRead_of_reg h
  | slot j => exact dataRead_of_slot h

/-- Settles O35: a valid selection names a value, an invalid one is an access error. -/
theorem dataReadReturnsTheSelectedLimb : Obligations.DataReadReturnsTheSelectedLimb := by
  unfold Obligations.DataReadReturnsTheSelectedLimb
  intro s rest hc hb hs
  rw [step_rd hc (by omega) (by omega) hs, busRead_data (s := s.withTurns rest) hb]
  refine ⟨fun v hk hv => ?_, fun hbad => ?_⟩
  · rw [selectedValue_eq] at hv
    obtain ⟨w, hw, rfl⟩ := Option.map_eq_some_iff.1 hv
    rw [dataRead_of_selected (s := s.withTurns rest) ((selected_of_lt hk).trans hw), bumpLimb_eq]
    cases w <;> rfl
  · have hnone : selected s = none := by
      by_cases hk : s.dselLimb.toNat < s.cfg.polyW / 32
      · rw [selected_of_lt hk]
        simpa [selectedValue_eq] using hbad.resolve_left (Nat.not_le.2 hk)
      · exact selected_of_ge (Nat.not_lt.1 hk)
    rw [dataRead_of_none (s := s.withTurns rest) hnone]
    exact ⟨_, rfl, accessError_answer .access 0x01C#12 false s rest (.okayRead 0#32)⟩

/-! ### DATA writes (R81) -/

theorem busWrite_data {s : State} (d : Word) (hb : s.busy = false) : busWrite 0x01C#12 d s = dataWrite d s := by
  rw [busWrite, if_neg (by simp [hb])]
  rfl

/-- Settles O36: only a selected register can be written, anything else is an access error. -/
theorem dataWriteReplacesOneLimb : Obligations.DataWriteReplacesOneLimb := by
  unfold Obligations.DataWriteReplacesOneLimb
  intro s d rest hc hb hs
  rw [step_wr hc (by omega) (by omega) hs, busWrite_data (s := s.withTurns rest) d hb]
  refine ⟨fun i hk hi => ?_, fun hbad => ?_⟩
  · have hlt : s.dselTarget.toNat < 8 := by omega
    have hsel : selected s = some (.reg i) := by
      rw [selected_of_lt hk, windowTarget_of_lt hlt]
      simp [hi]
    rw [dataWrite_of_reg (s := s.withTurns rest) d hsel, bumpLimb_eq]
    refine ⟨_, rfl, fun n => ?_, fun k hne => s.readReg_writeReg_ne i k _ hne, ⟨rfl, fun _ => rfl⟩, ⟨rfl, rfl, rfl, rfl⟩,
      rfl, rfl, ⟨rfl, rfl, rfl, rfl, rfl, rfl, rfl, rfl, rfl, rfl⟩⟩
    rw [← testBit_setLimb]
    exact congrArg (Nat.testBit · n) (s.readReg_writeReg_same i _)
  · have hnot : ∀ i, selected s ≠ some (.reg i) := fun i => by
      by_cases hk : s.dselLimb.toNat < s.cfg.polyW / 32
      · rw [selected_of_lt hk]
        exact windowTarget_not_reg (hbad.resolve_left (Nat.not_le.2 hk)) i
      · simp [selected_of_ge (Nat.not_lt.1 hk)]
    rw [dataWrite_of_not_reg (s := s.withTurns rest) d hnot]
    exact ⟨_, rfl, accessError_answer .access 0x01C#12 true s rest .okayWrite⟩

end Sys2Proof.Machine
end

