-- ==== Sys2Proof/Proofs/PendingCommand.lean ====
section
/-! PROOF. While a command is pending the host neither disturbs it (O56) nor sees its operands or results (O57): at the port
only the error fields, the flags and the enables can change, and a command's effect does not depend on those. -/

namespace Sys2Proof.Machine

open Sys2Proof.Claims

/-! ### Commands depend on registers, table and parameters only -/

/-- The two states agree on all that a command reads or writes but the error fields. -/
structure SameData (s t : State) : Prop where
  regs : RegsKept s t
  table : TableKept s t
  cfg : t.cfg = s.cfg

/-- Both outcomes are next states, which agree on registers and table. -/
def NextSameData (r q : Host.Outcome State Fault Refusal) : Prop :=
  ∃ u v, r = .next u ∧ q = .next v ∧ RegsKept u v ∧ TableKept u v

section Same

variable {s t : State}

theorem SameData.complete (h : SameData s t) : NextSameData (finish s) (finish t) :=
  ⟨_, _, rfl, rfl, h.regs, h.table⟩

theorem SameData.recordError (h : SameData s t) (c : ErrCode) (w w' : Word) :
    SameData (recordError c w s) (recordError c w' t) where
  regs i := by simpa using h.regs i
  table := ⟨by simpa using h.table.1, fun j => by simpa using h.table.2 j⟩
  cfg := by simpa using h.cfg

theorem SameData.raise (h : SameData s t) (c : ErrCode) : NextSameData (raise c s) (raise c t) :=
  (h.recordError c s.cmdl t.cmdl).complete

theorem SameData.writeResult (h : SameData s t) {rd : RegIdx} {v w : Poly} (hv : v = w) :
    NextSameData (writeResult rd v s) (writeResult rd w t) :=
  SameData.complete ⟨fun k => by simp only [State.readReg_writeReg, h.regs k, hv], h.table, h.cfg⟩

theorem SameData.writeChecked (h : SameData s t) {rd : RegIdx} {v w : Poly} (hv : v = w) :
    NextSameData (writeChecked rd v s) (writeChecked rd w t) := by
  unfold Machine.writeChecked
  rw [h.cfg, ← hv]
  split
  · exact h.raise _
  · exact h.writeResult rfl

theorem SameData.withDivisor (h : SameData s t) {d e : Poly} (hd : d = e) {r q : Host.Outcome State Fault Refusal}
    (hk : NextSameData r q) : NextSameData (withDivisor d s r) (withDivisor e t q) := by
  unfold Machine.withDivisor
  rw [← hd]
  split
  · exact h.raise _
  · exact hk

theorem SameData.withFoldWidth (h : SameData s t) (n : Nat) {r q : Host.Outcome State Fault Refusal}
    (hk : NextSameData r q) : NextSameData (withFoldWidth n s r) (withFoldWidth n t q) := by
  unfold Machine.withFoldWidth
  split
  · exact h.raise _
  · exact hk

theorem SameData.writeTable (h : SameData s t) (tab : Vector Poly 16) (valid : BitVec 16) :
    SameData (s.writeTable tab valid) (t.writeTable tab valid) :=
  ⟨h.regs, ⟨rfl, fun _ => rfl⟩, h.cfg⟩

theorem SameData.prev (h : SameData s t) (rd rs1 : RegIdx) (imm : Nat) :
    NextSameData (exec (.prev rd rs1 imm) s) (exec (.prev rd rs1 imm) t) := by
  rw [exec_prev_eq, exec_prev_eq, h.cfg, h.regs rs1]
  split
  · exact h.raise _
  · exact h.writeResult rfl

theorem SameData.derive (h : SameData s t) (rs1 : RegIdx) :
    NextSameData (execDerive rs1 s) (execDerive rs1 t) := by
  unfold execDerive
  rw [h.regs rs1]
  split
  · exact (h.writeTable _ _).raise .zdiv
  · exact (h.writeTable _ _).complete

/-- Every command's effect on registers and table is decided by what the two states agree on. -/
theorem SameData.exec (h : SameData s t) (i : Instr) : NextSameData (exec i s) (exec i t) := by
  have hreg (k : RegIdx) : s.readReg k = t.readReg k := (h.regs k).symm
  cases i with
  | nop => exact h.complete
  | pli => exact h.writeResult rfl
  | pmov rd rs1 => exact h.writeResult (hreg rs1)
  | pxor => exact h.writeResult (by simp only [hreg])
  | pshl => exact h.writeChecked (by simp only [hreg])
  | pshr => exact h.writeResult (by simp only [hreg])
  | pmask => exact h.writeResult (by simp only [hreg])
  | prev rd rs1 imm => exact h.prev rd rs1 imm
  | pmul => exact h.writeChecked (by simp only [hreg])
  | pdiv rd rs1 rs2 => exact h.withDivisor (hreg rs2) (h.writeResult (by simp only [hreg]))
  | prem rd rs1 rs2 => exact h.withDivisor (hreg rs2) (h.writeResult (by simp only [hreg]))
  | gpolyr => exact h.writeResult (by simp only [hreg])
  | gbar rd rs1 => exact h.withDivisor (hreg rs1) (h.writeResult (by simp only [hreg]))
  | gbarr rd rs1 => exact h.withDivisor (hreg rs1) (h.writeResult (by simp only [hreg]))
  | gfoldr rd rs1 imm => exact h.withDivisor (hreg rs1) (h.withFoldWidth imm (h.writeResult (by simp only [hreg])))
  | gremx rd rs1 => exact h.withDivisor (hreg rs1) (h.writeResult (by simp only [hreg]))
  | derive rs1 => exact h.derive rs1

theorem SameData.engineStep (h : SameData s t) (hw : t.cmdl = s.cmdl) : NextSameData (engineStep s) (engineStep t) := by
  unfold Machine.engineStep
  rw [hw]
  cases decode s.cmdl with
  | cmd i => exact h.exec i
  | illegal why => exact h.raise .illegal

end Same

/-! ### What a command leaves of the control state (R257) -/

theorem CommandEffect.controlKept {s u : State} (h : CommandEffect s u) : ControlKept s (complete u) := by
  cases h with
  | none => exact ⟨rfl, rfl, rfl, rfl, rfl, rfl, rfl, rfl, rfl, rfl⟩
  | error c => constructor <;> simp
  | reg rd v => exact ⟨rfl, rfl, rfl, rfl, rfl, rfl, rfl, rfl, rfl, rfl⟩
  | table rs1 _ => exact ⟨rfl, rfl, rfl, rfl, rfl, rfl, rfl, rfl, rfl, rfl⟩
  | clear => constructor <;> simp

/-! ### The port while a command is pending (R92) -/

/-- With `BUSY = 1` only `CTRL` and `STATUS` can be written; GATED offsets record an error (R92). -/
theorem busWrite_busy {s : State} (off : BitVec 12) (d : Word) (hb : s.busy = true) :
    busWrite off d s =
      if gated off = true then accessError .busy off true s
      else if off = 0x008#12 then ctrlWrite d s
      else if off = 0x00C#12 then statusWrite d s
      else s := by
  obtain ⟨-, hg, hr⟩ | ⟨hg, ⟨rfl, hr⟩ | ⟨rfl, hr⟩ | ⟨rfl, -⟩ | ⟨rfl, -⟩ | ⟨rfl, -⟩ | ⟨h8, hC, -, -, -, hr⟩⟩ :=
    busWrite_cases off d s
  · rw [hr, if_pos hg]
  · exact hr
  · exact hr
  · exact absurd ⟨hb, by decide⟩ hg
  · exact absurd ⟨hb, by decide⟩ hg
  · exact absurd ⟨hb, by decide⟩ hg
  · rw [hr, if_neg fun h => hg ⟨hb, h⟩, if_neg h8, if_neg hC]

/-- With `BUSY = 1` a read of a GATED offset records an error and returns 0, and any other returns its register's fields. -/
theorem busRead_busy {s : State} {off : BitVec 12} (h4 : off.toNat % 4 = 0) (hb : s.busy = true) :
    busRead off s =
      if gated off = true then (accessError .busy off false s, 0#32) else (s, registerWord s off.toNat) := by
  split
  · next hg => rw [busRead, if_pos ⟨hb, hg⟩]
  · next hg =>
    have hw : WordOffset off.toNat := ⟨off.isLt, h4⟩
    have hoff : BitVec.ofNat 12 off.toNat = off := by simp
    have hopen : ¬ GatedOffset off.toNat := by rwa [← gated_iff hw, hoff]
    have hdata : off.toNat ≠ 0x01C := fun e => hopen (.inr (.inr (.inl e)))
    simpa only [hoff] using busRead_eq_registerWord hw hdata (.inr hopen)

/-- What the host's transactions leave alone while a command is pending: the command, its operands and the results. -/
structure PendingKept (s u : State) : Prop extends SameData s u where
  cmdl : u.cmdl = s.cmdl
  lastCmd : u.lastCmd = s.lastCmd
  busy : u.busy = s.busy
  turns : u.turns = s.turns

section Pending

variable {s : State}

theorem PendingKept.refl : PendingKept s s := ⟨⟨fun _ => rfl, ⟨rfl, fun _ => rfl⟩, rfl⟩, rfl, rfl, rfl, rfl⟩

theorem PendingKept.trans {u v : State} (h : PendingKept s u) (h' : PendingKept u v) : PendingKept s v where
  regs i := (h'.regs i).trans (h.regs i)
  table := ⟨h'.table.1.trans h.table.1, fun j => (h'.table.2 j).trans (h.table.2 j)⟩
  cfg := h'.cfg.trans h.cfg
  cmdl := h'.cmdl.trans h.cmdl
  lastCmd := h'.lastCmd.trans h.lastCmd
  busy := h'.busy.trans h.busy
  turns := h'.turns.trans h.turns

theorem PendingKept.withTurns {u : State} (h : PendingKept s u) (ts : List Turn) :
    PendingKept (s.withTurns ts) (u.withTurns ts) :=
  ⟨⟨h.regs, h.table, h.cfg⟩, h.cmdl, h.lastCmd, h.busy, rfl⟩

theorem PendingKept.answer {u : State} (h : PendingKept s u) (r : Response) : PendingKept s (u.answer r) :=
  ⟨⟨h.regs, h.table, h.cfg⟩, h.cmdl, h.lastCmd, h.busy, h.turns⟩

theorem accessError_pendingKept (c : ErrCode) (off : BitVec 12) (write : Bool) :
    PendingKept s (accessError c off write s) where
  regs _ := recordError_readReg ..
  table := ⟨recordError_resValid .., fun _ => recordError_readSlot ..⟩
  cfg := recordError_cfg ..
  cmdl := recordError_cmdl ..
  lastCmd := recordError_lastCmd ..
  busy := recordError_busy ..
  turns := recordError_turns ..

theorem busWrite_pendingKept {off : BitVec 12} {d : Word} (hb : s.busy = true) (hd : off = 0x008#12 → d.getLsbD 31 = false) :
    PendingKept s (busWrite off d s) := by
  rw [busWrite_busy off d hb]
  split
  · exact accessError_pendingKept _ _ _
  split
  · next h8 =>
    rw [ctrlWrite_of_not_srst s (hd h8)]
    exact ⟨⟨fun _ => rfl, ⟨rfl, fun _ => rfl⟩, rfl⟩, rfl, rfl, rfl, rfl⟩
  split
  · exact ⟨⟨fun _ => rfl, ⟨rfl, fun _ => rfl⟩, rfl⟩, rfl, rfl, rfl, rfl⟩
  · exact .refl

theorem busRead_pendingKept {off : BitVec 12} (h4 : off.toNat % 4 = 0) (hb : s.busy = true) :
    PendingKept s (busRead off s).1 := by
  rw [busRead_busy h4 hb]
  split
  · exact accessError_pendingKept _ _ _
  · exact .refl

theorem hostTurn_pendingKept {tr : Transaction} (hb : s.busy = true) (h : (Turn.host tr).hostOnly s.cfg) :
    ∃ u, hostTurn tr s = .next u ∧ PendingKept s u := by
  obtain ⟨hans, hsrst⟩ := h
  obtain ⟨-, hr⟩ | ⟨hw, hna, -⟩ | ⟨-, ha, -, hr⟩ | ⟨hw, -, v, hacc, hr⟩ := hostTurn_cases tr s
  · exact ⟨_, hr, .refl⟩
  · exact absurd (hans hw) hna
  · exact ⟨_, hr, (busRead_pendingKept ha.2 hb).answer _⟩
  · exact ⟨_, hr, (busWrite_pendingKept hb (hsrst v hacc hw)).answer _⟩

/-- A run through turns of the host alone leaves the pending command as it was, with the turns after them next. -/
theorem hostRun_pendingKept {ts tail : List Turn} (n : Nat) (hb : s.busy = true) (hs : s.turns = ts ++ tail)
    (h : ∀ t ∈ ts, t.hostOnly s.cfg) :
    ∃ u, core.run (ts.length + n) s = core.run n u ∧ PendingKept (s.withTurns tail) u := by
  induction ts generalizing s with
  | nil => exact ⟨s, by simp, ⟨fun _ => rfl, ⟨rfl, fun _ => rfl⟩, rfl⟩, rfl, rfl, rfl, hs⟩
  | cons tr rest ih =>
    obtain ⟨hfirst, hrest⟩ := List.forall_mem_cons.1 h
    cases tr with
    | engine => exact hfirst.elim
    | reset => exact hfirst.elim
    | host tr =>
      obtain ⟨u, hu, hk⟩ := hostTurn_pendingKept (s := s.withTurns (rest ++ tail)) hb hfirst
      have hcfg : u.cfg = s.cfg := hk.cfg
      obtain ⟨v, hv, hk'⟩ := ih (hk.busy.trans hb) hk.turns (hcfg ▸ hrest)
      refine ⟨v, ?_, (hk.withTurns tail).trans hk'⟩
      rw [List.length_cons, Nat.succ_add, core_run_succ _ ((step_host hs).trans hu), hv]

end Pending

theorem core_run_engine {s t : State} (hs : s.turns = [.engine]) (hb : s.busy = true)
    (h : engineStep (s.withTurns []) = .next t) : core.run 1 s = .next t :=
  core_run_succ 0 ((step_engine_busy hs hb).trans h)

/-- Settles O56: the host's turns keep what decides the command's effect, and its completion is the engine's. -/
theorem pendingCommandIsNotDisturbed : Obligations.PendingCommandIsNotDisturbed := by
  unfold Obligations.PendingCommandIsNotDisturbed
  intro s ts hb hts
  obtain ⟨s', hrun, hkept⟩ := hostRun_pendingKept (s := s.withTurns (ts ++ [.engine])) 1 hb rfl hts
  obtain ⟨t, u, ht, hu, hregs, htable⟩ := (hkept.withTurns []).engineStep hkept.cmdl
  obtain ⟨u', hu', heff⟩ := engineStep_effect (s'.withTurns [])
  cases hu'.symm.trans hu
  have hctrl := heff.controlKept
  exact ⟨t, _, core_run_engine rfl hb ht, hrun.trans (core_run_engine hkept.turns (hkept.busy.trans hb) hu), hregs, htable,
    rfl, rfl, hctrl.cfg.trans hkept.cfg, hctrl.cmdl.trans hkept.cmdl, hctrl.lastCmd.trans hkept.lastCmd⟩

/-! ### What the host sees meanwhile (R92) -/

/-- `s` with other registers and results. -/
def State.withData (s : State) (x : Vector Poly 8) (res : Vector Poly 16) (v : BitVec 16) : State :=
  { s with x := x, res := res, resValid := v }

section Seen

variable {s : State} (x : Vector Poly 8) (res : Vector Poly 16) (v : BitVec 16)

theorem accessError_withData (c : ErrCode) (off : BitVec 12) (write : Bool) :
    accessError c off write (s.withData x res v) = (accessError c off write s).withData x res v := by
  unfold accessError recordError
  rw [apply_ite (State.withData · x res v)]
  rfl

theorem registerWord_withData {off : Nat} (hw : WordOffset off) (hopen : ¬ GatedOffset off) :
    registerWord (s.withData x res v) off = registerWord s off := by
  obtain ⟨hlt, h4⟩ := hw
  unfold GatedOffset at hopen
  have hvalid : off ≠ 0x020 := by omega
  have hview : ¬(0x100 ≤ off ∧ off < 0x180) := by omega
  unfold registerWord
  rw [if_neg hvalid, if_neg hvalid, dif_neg hview, dif_neg hview]
  rfl

theorem busRead_withData {off : BitVec 12} (h4 : off.toNat % 4 = 0) (hb : s.busy = true) :
    busRead off (s.withData x res v) = ((busRead off s).1.withData x res v, (busRead off s).2) := by
  rw [busRead_busy h4 hb, busRead_busy (s := s.withData x res v) h4 hb]
  split
  · rw [accessError_withData]
  · next hg =>
    have hw : WordOffset off.toNat := ⟨off.isLt, h4⟩
    have hopen : ¬ GatedOffset off.toNat := by rwa [← gated_iff hw, BitVec.ofNat_toNat, BitVec.setWidth_eq]
    rw [registerWord_withData x res v hw hopen]

/-- A write that does not end `BUSY` is none of `SRST`. -/
theorem busWrite_withData {off : BitVec 12} {d : Word} (hb : s.busy = true) (hb' : (busWrite off d s).busy = true) :
    busWrite off d (s.withData x res v) = (busWrite off d s).withData x res v := by
  rw [busWrite_busy off d hb, busWrite_busy (s := s.withData x res v) off d hb]
  split
  · exact accessError_withData x res v _ _ _
  split
  · next h8 =>
    subst h8
    cases hd : d.getLsbD 31 with
    | true =>
      rw [busWrite_srst s hd] at hb'
      cases hb'
    | false =>
      rw [ctrlWrite_of_not_srst s hd, ctrlWrite_of_not_srst _ hd]
      rfl
  split <;> rfl

theorem hostTurn_withData {tr : Transaction} (hb : s.busy = true) (hb' : ∀ t, hostTurn tr s = .next t → t.busy = true) :
    (∃ f, hostTurn tr s = .fault f ∧ hostTurn tr (s.withData x res v) = .fault f) ∨
      ∃ t, hostTurn tr s = .next t ∧ hostTurn tr (s.withData x res v) = .next (t.withData x res v) := by
  obtain ⟨hout, hr⟩ | ⟨hw, hna, hr⟩ | ⟨hw, ha, hacc, hr⟩ | ⟨hw, ha, d, hacc, hr⟩ := hostTurn_cases tr s
  · exact .inr ⟨_, hr, hostTurn_outside (s := s.withData x res v) hout⟩
  · exact .inl ⟨_, hr, hostTurn_error (s := s.withData x res v) hw hna⟩
  · obtain ⟨a, n, acc⟩ := tr
    obtain ⟨rfl, h4⟩ := ha
    subst hacc
    refine .inr ⟨_, hr, ?_⟩
    rw [hostTurn_read (s := s.withData x res v) hw ⟨rfl, h4⟩, busRead_withData x res v h4 hb]
    rfl
  · obtain ⟨a, n, acc⟩ := tr
    obtain ⟨rfl, h4⟩ := ha
    subst hacc
    refine .inr ⟨_, hr, ?_⟩
    rw [hostTurn_write (s := s.withData x res v) hw ⟨rfl, h4⟩, busWrite_withData x res v hb (hb' _ hr :)]
    rfl

end Seen

/-- Settles O57: the host's turn commutes with exchanging registers and results. -/
theorem pendingCommandIsNotSeen : Obligations.PendingCommandIsNotSeen := by
  unfold Obligations.PendingCommandIsNotSeen
  intro s x res v tr rest hb hs hb'
  have hstep : step s = hostTurn tr (s.withTurns rest) := step_host hs
  have hstep' : step (s.withData x res v) = hostTurn tr ((s.withTurns rest).withData x res v) :=
    step_host (s := s.withData x res v) hs
  rw [hstep] at hb'
  have h := hostTurn_withData (s := s.withTurns rest) x res v hb hb'
  rwa [← hstep, ← hstep'] at h

end Sys2Proof.Machine
end

