-- ==== Sys2Proof/Proofs/Encoding.lean ====
section
/-! PROOF. The command word as its fields side by side (R121). From that follow which words match a row (R124, O2), the round
trip of decoder and encoder (R128, O1) and what the assembler refuses (R129, O60). -/

namespace Sys2Proof.Machine

open Sys2Proof.Claims

/-! ### A word and its fields (R121) -/

theorem append_inj {n m : Nat} {a c : BitVec n} {b d : BitVec m} : a ++ b = c ++ d ↔ a = c ∧ b = d := by
  refine ⟨fun h => ⟨?_, ?_⟩, fun ⟨ha, hb⟩ => ha ▸ hb ▸ rfl⟩
  · rw [← BitVec.extractLsb'_append_eq_left (a := a) (b := b), h, BitVec.extractLsb'_append_eq_left]
  · rw [← BitVec.extractLsb'_append_eq_right (a := a) (b := b), h, BitVec.extractLsb'_append_eq_right]

/-- `OP`, `RD`, `RS1`, `RS2`, `Z` and `IMM16`, side by side from bit 31 down (R121). -/
def fieldsWord (op : BitVec 6) (rd rs1 rs2 : BitVec 3) (z : BitVec 1) (imm : BitVec 16) : Word :=
  op ++ rd ++ rs1 ++ rs2 ++ z ++ imm

section Fields

variable {op op' : BitVec 6} {rd rd' rs1 rs1' rs2 rs2' : BitVec 3} {z z' : BitVec 1} {imm imm' : BitVec 16}

theorem fieldsWord_inj : fieldsWord op rd rs1 rs2 z imm = fieldsWord op' rd' rs1' rs2' z' imm' ↔
    op = op' ∧ rd = rd' ∧ rs1 = rs1' ∧ rs2 = rs2' ∧ z = z' ∧ imm = imm' := by
  refine append_inj.trans ?_
  simp only [append_inj, and_assoc]

theorem fieldsWord_and : fieldsWord op rd rs1 rs2 z imm &&& fieldsWord op' rd' rs1' rs2' z' imm' =
    fieldsWord (op &&& op') (rd &&& rd') (rs1 &&& rs1') (rs2 &&& rs2') (z &&& z') (imm &&& imm') := by
  refine BitVec.and_append.trans ?_
  simp only [BitVec.and_append]
  rfl

theorem fieldsWord_or : fieldsWord op rd rs1 rs2 z imm ||| fieldsWord op' rd' rs1' rs2' z' imm' =
    fieldsWord (op ||| op') (rd ||| rd') (rs1 ||| rs1') (rs2 ||| rs2') (z ||| z') (imm ||| imm') := by
  refine BitVec.or_append.trans ?_
  simp only [BitVec.or_append]
  rfl

end Fields

/-- The decoder's fields cover the word without overlap; `Z` is the bit it does not deliver. -/
theorem fieldsWord_fields (w : Word) :
    fieldsWord (opField w) (.ofFin (rdField w)) (.ofFin (rs1Field w)) (.ofFin (rs2Field w)) (w.extractLsb' 16 1)
      (w.extractLsb' 0 16) = w := by
  refine .trans (b := w.extractLsb' 0 32) ?_ BitVec.extractLsb'_eq_self
  simp only [fieldsWord, opField, rdField, rs1Field, rs2Field, BitVec.ofFin_toFin,
    BitVec.extractLsb'_append_extractLsb'_eq_extractLsb']

theorem immField_le (w : Word) : immField w ≤ 65535 := Nat.le_of_lt_succ (w.extractLsb' 0 16).isLt

theorem ofNat_immField (w : Word) : BitVec.ofNat 16 (immField w) = w.extractLsb' 0 16 := BitVec.ofNat_toNat ..

/-! ### The encoder's word (R128) -/

theorem ofNat_eq_fieldsWord {imm : Nat} (h : imm ≤ 65535) : BitVec.ofNat 32 imm = fieldsWord 0 0 0 0 0 (.ofNat 16 imm) := by
  apply BitVec.eq_of_toNat_eq
  refine .trans ?_ (BitVec.toNat_append ..).symm
  simp [Nat.mod_eq_of_lt (show imm < 65536 by omega), Nat.mod_eq_of_lt (show imm < 4294967296 by omega)]

theorem matchWord_eq_fieldsWord (o : Op) : o.matchWord = fieldsWord o.code 0 0 0 0 0 := by cases o <;> rfl

/-- The encoder shifts each operand into its own field, and `Z` stays 0. -/
theorem encodeFields_eq_fieldsWord (o : Op) (rd rs1 rs2 : RegIdx) {imm : Nat} (h : imm ≤ 65535) :
    encodeFields o rd rs1 rs2 imm = fieldsWord o.code (.ofFin rd) (.ofFin rs1) (.ofFin rs2) 0 (.ofNat 16 imm) := by
  have hrd : BitVec.ofNat 32 rd.val <<< 23 = fieldsWord 0 (.ofFin rd) 0 0 0 0 := by revert rd; decide
  have hrs1 : BitVec.ofNat 32 rs1.val <<< 20 = fieldsWord 0 0 (.ofFin rs1) 0 0 0 := by revert rs1; decide
  have hrs2 : BitVec.ofNat 32 rs2.val <<< 17 = fieldsWord 0 0 0 (.ofFin rs2) 0 0 := by revert rs2; decide
  simp [encodeFields, matchWord_eq_fieldsWord, hrd, hrs1, hrs2, ofNat_eq_fieldsWord h, fieldsWord_or]

/-- The command word of a row's command has the operands its form uses, and 0 in place of the others (R123, R128). -/
theorem encode_build (o : Op) (rd rs1 rs2 : RegIdx) (imm : Nat) :
    encode (o.build rd rs1 rs2 imm) =
      encodeFields o (if usesRd o.form then rd else 0) (if usesRs1 o.form then rs1 else 0)
        (if usesRs2 o.form then rs2 else 0) (if usesImm o.form then imm else 0) := by
  cases o <;> rfl

/-! ### Operands a form does not use (R123) -/

/-- The operands a form does not use are 0. -/
structure UnusedZero (f : Form) (rd rs1 rs2 : RegIdx) (imm : Nat) : Prop where
  rd : usesRd f = false → rd = 0
  rs1 : usesRs1 f = false → rs1 = 0
  rs2 : usesRs2 f = false → rs2 = 0
  imm : usesImm f = false → imm = 0

theorem ite_of_unused {α : Type} {used : Bool} {x z : α} (h : used = false → x = z) : (if used then x else z) = x := by
  cases used with
  | false => exact (h rfl).symm
  | true => rfl

theorem encode_build_of_unusedZero {o : Op} {rd rs1 rs2 : RegIdx} {imm : Nat} (h : UnusedZero o.form rd rs1 rs2 imm) :
    encode (o.build rd rs1 rs2 imm) = encodeFields o rd rs1 rs2 imm := by
  rw [encode_build, ite_of_unused h.rd, ite_of_unused h.rs1, ite_of_unused h.rs2, ite_of_unused h.imm]

/-- A row's command does not depend on the operands its form does not use (R127). -/
theorem build_ite (o : Op) (rd rs1 rs2 : RegIdx) (imm : Nat) :
    o.build (if usesRd o.form then rd else 0) (if usesRs1 o.form then rs1 else 0) (if usesRs2 o.form then rs2 else 0)
      (if usesImm o.form then imm else 0) = o.build rd rs1 rs2 imm := by
  cases o <;> rfl

theorem unusedZero_ite (f : Form) (rd rs1 rs2 : RegIdx) (imm : Nat) :
    UnusedZero f (if usesRd f then rd else 0) (if usesRs1 f then rs1 else 0) (if usesRs2 f then rs2 else 0)
      (if usesImm f then imm else 0) where
  rd h := by rw [h]; rfl
  rs1 h := by rw [h]; rfl
  rs2 h := by rw [h]; rfl
  imm h := by rw [h]; rfl

/-- Every command is its row's, built from some operands. -/
theorem exists_build (i : Instr) : ∃ rd rs1 rs2 imm, i.op.build rd rs1 rs2 imm = i := by
  cases i with
  | nop => exact ⟨0, 0, 0, 0, rfl⟩
  | pli rd imm => exact ⟨rd, 0, 0, imm, rfl⟩
  | pmov rd rs1 => exact ⟨rd, rs1, 0, 0, rfl⟩
  | pxor rd rs1 rs2 => exact ⟨rd, rs1, rs2, 0, rfl⟩
  | pshl rd rs1 imm => exact ⟨rd, rs1, 0, imm, rfl⟩
  | pshr rd rs1 imm => exact ⟨rd, rs1, 0, imm, rfl⟩
  | pmask rd rs1 imm => exact ⟨rd, rs1, 0, imm, rfl⟩
  | prev rd rs1 imm => exact ⟨rd, rs1, 0, imm, rfl⟩
  | pmul rd rs1 rs2 => exact ⟨rd, rs1, rs2, 0, rfl⟩
  | pdiv rd rs1 rs2 => exact ⟨rd, rs1, rs2, 0, rfl⟩
  | prem rd rs1 rs2 => exact ⟨rd, rs1, rs2, 0, rfl⟩
  | gpolyr rd rs1 => exact ⟨rd, rs1, 0, 0, rfl⟩
  | gbar rd rs1 => exact ⟨rd, rs1, 0, 0, rfl⟩
  | gbarr rd rs1 => exact ⟨rd, rs1, 0, 0, rfl⟩
  | gfoldr rd rs1 imm => exact ⟨rd, rs1, 0, imm, rfl⟩
  | gremx rd rs1 imm => exact ⟨rd, rs1, 0, imm, rfl⟩
  | derive rs1 => exact ⟨0, rs1, 0, 0, rfl⟩

/-- A well-formed command carries no immediate or one that fits `IMM16` (R122). -/
theorem imm_le_of_wf_build {o : Op} {rd rs1 rs2 : RegIdx} {imm : Nat} (h : (o.build rd rs1 rs2 imm).wf = true) :
    (if usesImm o.form then imm else 0) ≤ 65535 := by
  cases o with
  | pli | pshl | pshr | pmask | prev | gfoldr | gremx => exact of_decide_eq_true h
  | _ => exact Nat.zero_le _

/-- A well-formed command has operands that fit their fields, with 0 for each that its form does not use. -/
theorem exists_build_of_wf {i : Instr} (h : i.wf = true) :
    ∃ rd rs1 rs2 imm, imm ≤ 65535 ∧ UnusedZero i.op.form rd rs1 rs2 imm ∧ i.op.build rd rs1 rs2 imm = i := by
  obtain ⟨rd, rs1, rs2, imm, hi⟩ := exists_build i
  exact ⟨_, _, _, _, imm_le_of_wf_build (hi.symm ▸ h), unusedZero_ite _ rd rs1 rs2 imm, (build_ite ..).trans hi⟩

/-! ### Masked words (R124) -/

theorem maskWord_eq_fieldsWord (o : Op) :
    o.maskWord = fieldsWord (.allOnes 6) (if usesRd o.form then 0 else .allOnes 3) (if usesRs1 o.form then 0 else .allOnes 3)
      (if usesRs2 o.form then 0 else .allOnes 3) (.allOnes 1) (if usesImm o.form then 0 else .allOnes 16) := by
  cases o <;> rfl

/-- Masking a field that must be 0 leaves it, and masking any other clears it. -/
theorem and_mask_eq_zero_iff {n : Nat} (x : BitVec n) (used : Bool) :
    x &&& (if used then 0 else .allOnes n) = 0 ↔ (used = false → x = 0) := by
  cases used <;> simp

theorem ofFin_eq_zero_iff (r : RegIdx) : (BitVec.ofFin r : BitVec 3) = 0 ↔ r = 0 := by
  revert r; decide

theorem immBits_eq_zero_iff (w : Word) : w.extractLsb' 0 16 = 0 ↔ immField w = 0 := BitVec.toNat_inj.symm

/-- A word's masked bits are a row's `match` exactly when it has the row's `OP`, and 0 in `Z` and in every field the row's
form does not use. -/
theorem and_maskWord_eq_matchWord_iff (w : Word) (o : Op) : w &&& o.maskWord = o.matchWord ↔
    opField w = o.code ∧ w.extractLsb' 16 1 = 0 ∧
      UnusedZero o.form (rdField w) (rs1Field w) (rs2Field w) (immField w) := by
  conv_lhs => rw [← fieldsWord_fields w, maskWord_eq_fieldsWord, matchWord_eq_fieldsWord, fieldsWord_and, fieldsWord_inj]
  simp only [BitVec.and_allOnes, and_mask_eq_zero_iff, ofFin_eq_zero_iff, immBits_eq_zero_iff]
  exact ⟨fun ⟨hop, hrd, hrs1, hrs2, hz, himm⟩ => ⟨hop, hz, hrd, hrs1, hrs2, himm⟩,
    fun ⟨hop, hz, hrd, hrs1, hrs2, himm⟩ => ⟨hop, hrd, hrs1, hrs2, hz, himm⟩⟩

theorem ofCode_code (o : Op) : Op.ofCode o.code = some o := by cases o <;> rfl

/-- The decoder's test of the `OP` number is part of the row's mask. -/
theorem ofCode_of_and_maskWord {w : Word} {o : Op} (h : w &&& o.maskWord = o.matchWord) : Op.ofCode (opField w) = some o := by
  rw [((and_maskWord_eq_matchWord_iff w o).1 h).1, ofCode_code]

theorem tableRow_eq (o : Op) : tableRow o = (o.matchWord, o.maskWord) := by cases o <;> rfl

/-- Settles O2: the decoder answers a command of a row exactly when the masked word is the row's `match`. -/
theorem rowsSpellTheirInstructions : Obligations.RowsSpellTheirInstructions := by
  unfold Obligations.RowsSpellTheirInstructions
  intro w o
  rw [tableRow_eq]
  constructor
  · rintro ⟨i, hi, rfl⟩
    obtain ⟨o, -, hm, rfl⟩ := decode_eq_cmd_iff.1 hi
    rwa [op_build]
  · intro hm
    exact ⟨_, decode_eq_cmd_iff.2 ⟨o, ofCode_of_and_maskWord hm, hm, rfl⟩, op_build ..⟩

/-! ### The round trip (R128) -/

theorem encode_of_decode {w : Word} {i : Instr} (h : decode w = .cmd i) : encode i = w := by
  obtain ⟨o, -, hm, rfl⟩ := decode_eq_cmd_iff.1 h
  obtain ⟨hop, hz, hunused⟩ := (and_maskWord_eq_matchWord_iff w o).1 hm
  rw [encode_build_of_unusedZero hunused, encodeFields_eq_fieldsWord _ _ _ _ (immField_le w), ← hop, ← hz,
    ofNat_immField, fieldsWord_fields]

/-- The decoder finds in the encoder's word the fields it was made of. -/
theorem fields_encodeFields (o : Op) (rd rs1 rs2 : RegIdx) {imm : Nat} (h : imm ≤ 65535) :
    let w := encodeFields o rd rs1 rs2 imm
    opField w = o.code ∧ rdField w = rd ∧ rs1Field w = rs1 ∧ rs2Field w = rs2 ∧ w.extractLsb' 16 1 = 0 ∧ immField w = imm := by
  intro w
  obtain ⟨hop, hrd, hrs1, hrs2, hz, himm⟩ :=
    fieldsWord_inj.1 ((fieldsWord_fields w).trans (encodeFields_eq_fieldsWord o rd rs1 rs2 h))
  refine ⟨hop, congrArg BitVec.toFin hrd, congrArg BitVec.toFin hrs1, congrArg BitVec.toFin hrs2, hz,
    (congrArg BitVec.toNat himm).trans (Nat.mod_eq_of_lt (Nat.lt_succ_of_le h))⟩

theorem decode_encode {i : Instr} (h : i.wf = true) : decode (encode i) = .cmd i := by
  obtain ⟨rd, rs1, rs2, imm, himm, hunused, hi⟩ := exists_build_of_wf h
  have hw : encode i = encodeFields i.op rd rs1 rs2 imm := by
    rw [← encode_build_of_unusedZero hunused, hi]
  obtain ⟨hop, hrd, hrs1, hrs2, hz, himm'⟩ := fields_encodeFields i.op rd rs1 rs2 himm
  have hm := (and_maskWord_eq_matchWord_iff _ i.op).2 ⟨hop, hz, by rwa [hrd, hrs1, hrs2, himm']⟩
  rw [hw]
  exact decode_eq_cmd_iff.2 ⟨_, ofCode_of_and_maskWord hm, hm, by rw [hrd, hrs1, hrs2, himm', hi]⟩

theorem shiftLeft_ite (used : Bool) (r : RegIdx) (n : Nat) :
    BitVec.ofNat 32 (if used then r else 0).val <<< n = if used then BitVec.ofNat 32 r.val <<< n else 0#32 := by
  cases used <;> simp

theorem ofNat_ite (used : Bool) (imm : Nat) :
    BitVec.ofNat 32 (if used then imm else 0) = if used then BitVec.ofNat 32 imm else 0#32 := by
  cases used <;> rfl

/-- Settles O1: the encoder's word has the command's operands in the decoder's fields, and what the mask requires to be 0 is
what the encoder writes as 0. -/
theorem decodeAndEncodeAgree : Obligations.DecodeAndEncodeAgree := by
  unfold Obligations.DecodeAndEncodeAgree
  refine ⟨fun i h => decode_encode h, fun w i h => ⟨encode_of_decode h, wf_of_decode h⟩, fun o rd rs1 rs2 imm _ => ?_⟩
  simp only [encode_build, encodeFields, tableRow_eq, shiftLeft_ite, ofNat_ite]

/-! ### The assembler (R129) -/

/-- Settles O60: the assembler's operand check is well-formedness, and what passes it decodes to the command. -/
theorem assemblerRefusesOutOfRange : Obligations.AssemblerRefusesOutOfRange := by
  unfold Obligations.AssemblerRefusesOutOfRange
  intro i
  cases h : i.wf with
  | false => simp [assembleLine, assembleInstrs, h]
  | true => simp [assembleLine, assembleInstrs, h, decode_encode h]

end Sys2Proof.Machine
end

