-- ==== Sys2Proof/Proofs/PseudoInstructions.lean ====
section
/-! PROOF. What the commands of each pseudo-instruction leave in its register (R130, O59). -/

namespace Sys2Proof.Machine

open Sys2Proof.Claims

theorem writeResult_reads (rd : RegIdx) (v : Poly) (s : State) : ∃ t, writeResult rd v s = .next t ∧ t.readReg rd = v :=
  ⟨_, writeResult_eq rd v s, by simp⟩

theorem exec_pli_eq (rd : RegIdx) (imm : Nat) (s : State) : exec (.pli rd imm) s = writeResult rd imm s := rfl

theorem exec_pshl_eq (rd rs1 : RegIdx) (imm : Nat) (s : State) :
    exec (.pshl rd rs1 imm) s = writeChecked rd (s.readReg rs1 <<< imm) s := rfl

theorem exec_pmask_eq (rd rs1 : RegIdx) (imm : Nat) (s : State) :
    exec (.pmask rd rs1 imm) s = writeResult rd (mask (s.readReg rs1) imm) s := rfl

/-- `x^n` has `n + 1` bits (R10). -/
theorem bitlen_one_shiftLeft_le_iff {n k : Nat} : bitlen (1 <<< n) ≤ k ↔ n < k := by
  rw [bitlen_le_iff, Nat.one_shiftLeft, Nat.pow_lt_pow_iff_right (by omega)]

/-- PLI leaves 1 and keeps the errors and the command word, so that PSHL by `n` gives `x^n` or refuses it (R32, R184). -/
theorem exec_pxpow (s : State) (pd : RegIdx) (n : Nat) :
    ∃ t u, exec (.pli pd 1) s = .next t ∧ exec (.pshl pd pd n) t = .next u ∧
      (n < s.cfg.polyW → u.readReg pd = 2 ^ n ∧ ErrorsKept s u) ∧ (s.cfg.polyW ≤ n → ErrorRecorded 0x03#8 s.cmdl s u) := by
  refine ⟨complete (s.writeReg pd 1), ?_⟩
  rw [exec_pli_eq, writeResult_eq, exec_pshl_eq, complete_readReg, State.readReg_writeReg_same]
  by_cases h : n < s.cfg.polyW
  · refine ⟨_, rfl, writeChecked_of_fits (bitlen_one_shiftLeft_le_iff.2 h), fun _ => ⟨?_, rfl, rfl, rfl, rfl⟩,
      fun h' => absurd h (Nat.not_lt.2 h')⟩
    rw [complete_readReg, State.readReg_writeReg_same, Nat.one_shiftLeft]
  · exact ⟨_, rfl, writeChecked_of_wide (Nat.not_le.1 (mt bitlen_one_shiftLeft_le_iff.1 h)), fun h' => absurd h' h,
      fun _ => recordError_recorded .width s.cmdl (complete (s.writeReg pd 1))⟩

theorem brev_32_eq_reverse (a : Poly) : brev a 32 = (BitVec.ofNat 32 a).reverse.toNat := by
  rw [← viewReversed_eq_reverse, viewReversed, BitVec.toNat_ofNat, Nat.mod_eq_of_lt (brev_lt a 32)]

/-- Settles O59: each expansion is run command by command; only the shift of `pxpow` can fail. -/
theorem pseudoInstructionsDoAsTheyExpand : Obligations.PseudoInstructionsDoAsTheyExpand := by
  unfold Obligations.PseudoInstructionsDoAsTheyExpand
  intro s pd ps
  refine ⟨⟨rfl, ?_⟩, ⟨rfl, ?_⟩, fun n => ⟨rfl, exec_pxpow s pd n⟩, ⟨rfl, ?_⟩, rfl, fun h => ?_⟩
  · exact writeResult_reads pd 0 s
  · exact writeResult_reads pd 1 s
  · rw [exec_pmask_eq, mask_eq_mod]
    exact writeResult_reads pd _ s
  · rw [exec_prev_eq, if_neg (Nat.not_lt.2 h), ← brev_32_eq_reverse]
    exact writeResult_reads pd _ s

end Sys2Proof.Machine
end

