-- ==== Sys2Proof/Proofs/Gf2Polynomials.lean ====
section
/-! PROOF. Values as polynomials over GF(2) (R7): the sum is XOR and the product is `clmul`, so that the laws of the product
(O27, O30) are those of the polynomial ring. -/

namespace Sys2Proof.Machine

open Polynomial

/-- The polynomial a value stands for: bit `i` is the coefficient of `x^i` (R7). -/
noncomputable def toPoly (a : Poly) : (ZMod 2)[X] := ∑ i ∈ Finset.range (bitlen a), if a.testBit i then X ^ i else 0

/-! ### Coefficients and size -/

theorem testBit_of_bitlen_le {a : Poly} {n : Nat} (h : bitlen a ≤ n) : a.testBit n = false :=
  Nat.testBit_lt_two_pow (bitlen_le_iff.1 h)

theorem coeff_toPoly (a : Poly) (n : Nat) : (toPoly a).coeff n = if a.testBit n then 1 else 0 := by
  have hterm (i : Nat) : (if a.testBit i then (X : (ZMod 2)[X]) ^ i else 0).coeff n =
      if n = i then if a.testBit n then 1 else 0 else 0 := by
    by_cases hi : n = i
    · subst hi
      cases a.testBit n <;> simp
    · cases a.testBit i <;> simp [coeff_X_pow, hi]
  rw [toPoly, finsetSum_coeff, Finset.sum_congr rfl fun i _ => hterm i, Finset.sum_ite_eq]
  by_cases hn : n < bitlen a
  · simp [hn]
  · simp [testBit_of_bitlen_le (Nat.le_of_not_lt hn)]

/-- Coefficients are equal only for equal bits. -/
theorem bitCoeff_inj {p q : Bool} : (if p then 1 else 0 : ZMod 2) = (if q then 1 else 0) ↔ p = q := by
  cases p <;> cases q <;> decide

theorem toPoly_inj {a b : Poly} : toPoly a = toPoly b ↔ a = b := by
  refine ⟨fun h => Nat.eq_of_testBit_eq fun n => ?_, congrArg toPoly⟩
  have hn : (toPoly a).coeff n = (toPoly b).coeff n := congrArg (coeff · n) h
  rwa [coeff_toPoly, coeff_toPoly, bitCoeff_inj] at hn

theorem toPoly_zero : toPoly 0 = 0 := rfl

theorem toPoly_ne_zero {a : Poly} (h : a ≠ 0) : toPoly a ≠ 0 := fun h0 => h (toPoly_inj.1 (h0.trans toPoly_zero.symm))

theorem natDegree_toPoly {a : Poly} (h : a ≠ 0) : (toPoly a).natDegree = deg a := by
  refine natDegree_eq_of_le_of_coeff_ne_zero (natDegree_le_iff_coeff_eq_zero.2 fun n hn => ?_) ?_
  · rw [coeff_toPoly, testBit_of_bitlen_le (by rwa [bitlen_of_ne h])]
    rfl
  · simp [coeff_toPoly, testBit_deg h]

/-! ### The operations -/

theorem toPoly_xor (a b : Poly) : toPoly (a ^^^ b) = toPoly a + toPoly b := by
  ext n
  rw [coeff_add, coeff_toPoly, coeff_toPoly, coeff_toPoly, Nat.testBit_xor]
  cases a.testBit n <;> cases b.testBit n <;> decide

theorem toPoly_shiftLeft (a : Poly) (s : Nat) : toPoly (a <<< s) = toPoly a * X ^ s := by
  ext n
  rw [coeff_mul_X_pow', coeff_toPoly, coeff_toPoly, Nat.testBit_shiftLeft]
  by_cases h : s ≤ n <;> simp [h]

theorem toPoly_one : toPoly 1 = 1 := by
  rw [toPoly, show bitlen 1 = 1 by decide, Finset.sum_range_one]
  simp

theorem toPoly_two_pow (s : Nat) : toPoly (2 ^ s) = X ^ s := by
  rw [← Nat.one_shiftLeft, toPoly_shiftLeft, toPoly_one, one_mul]

theorem toPoly_clmulBits (a b : Poly) (n : Nat) :
    toPoly (clmulBits a b n) = (∑ i ∈ Finset.range n, if a.testBit i then X ^ i else 0) * toPoly b := by
  induction n with
  | zero => rw [Finset.range_zero, Finset.sum_empty, zero_mul]; rfl
  | succ n ih =>
    rw [clmulBits, Finset.sum_range_succ, add_mul, ← ih]
    split
    · rw [toPoly_xor, toPoly_shiftLeft, mul_comm (toPoly b)]
    · rw [zero_mul, add_zero]

/-- `clmul` is the product of polynomials (R152). -/
theorem toPoly_clmul (a b : Poly) : toPoly (clmul a b) = toPoly a * toPoly b := toPoly_clmulBits a b (bitlen a)

/-! ### The ring laws of the product -/

theorem clmul_comm (a b : Poly) : clmul a b = clmul b a :=
  toPoly_inj.1 (by rw [toPoly_clmul, toPoly_clmul, mul_comm])

theorem clmul_assoc (a b c : Poly) : clmul (clmul a b) c = clmul a (clmul b c) :=
  toPoly_inj.1 (by simp only [toPoly_clmul, mul_assoc])

theorem clmul_xor (a b c : Poly) : clmul a (b ^^^ c) = clmul a b ^^^ clmul a c :=
  toPoly_inj.1 (by simp only [toPoly_clmul, toPoly_xor, mul_add])

theorem xor_clmul (a b c : Poly) : clmul (a ^^^ b) c = clmul a c ^^^ clmul b c :=
  toPoly_inj.1 (by simp only [toPoly_clmul, toPoly_xor, add_mul])

theorem two_pow_clmul (s : Nat) (a : Poly) : clmul (2 ^ s) a = a <<< s :=
  toPoly_inj.1 (by rw [toPoly_clmul, toPoly_shiftLeft, toPoly_two_pow, mul_comm])

@[simp] theorem one_clmul (a : Poly) : clmul 1 a = a := two_pow_clmul 0 a

@[simp] theorem clmul_one (a : Poly) : clmul a 1 = a := by rw [clmul_comm, one_clmul]

@[simp] theorem zero_clmul (a : Poly) : clmul 0 a = 0 := rfl

@[simp] theorem clmul_zero (a : Poly) : clmul a 0 = 0 := by rw [clmul_comm, zero_clmul]

/-- Settles O30. -/
theorem productIsRingMultiplication : Obligations.ProductIsRingMultiplication := by
  unfold Obligations.ProductIsRingMultiplication
  exact ⟨clmul_assoc, clmul_xor, fun a => ⟨one_clmul a, clmul_one a⟩, fun a s => two_pow_clmul s a⟩

/-! ### The degree of the product -/

theorem clmul_ne_zero {a b : Poly} (ha : a ≠ 0) (hb : b ≠ 0) : clmul a b ≠ 0 := by
  intro h
  refine mul_ne_zero (toPoly_ne_zero ha) (toPoly_ne_zero hb) ?_
  rw [← toPoly_clmul, h, toPoly_zero]

theorem deg_clmul {a b : Poly} (ha : a ≠ 0) (hb : b ≠ 0) : deg (clmul a b) = deg a + deg b := by
  rw [← natDegree_toPoly (clmul_ne_zero ha hb), toPoly_clmul, natDegree_mul (toPoly_ne_zero ha) (toPoly_ne_zero hb),
    natDegree_toPoly ha, natDegree_toPoly hb]

theorem bitlen_clmul {a b : Poly} (ha : a ≠ 0) (hb : b ≠ 0) : bitlen (clmul a b) = bitlen a + bitlen b - 1 := by
  rw [bitlen_of_ne (clmul_ne_zero ha hb), deg_clmul ha hb, bitlen_of_ne ha, bitlen_of_ne hb]
  omega

/-! ### The product's coefficients -/

theorem sum_ite_eq_countP (p : Nat → Bool) (n : Nat) :
    ∑ i ∈ Finset.range n, (if p i then 1 else 0 : ZMod 2) = ((List.range n).countP p : ZMod 2) := by
  induction n with
  | zero => simp
  | succ n ih =>
    rw [Finset.sum_range_succ, ih]
    simp [List.range_succ]

theorem ite_mul_ite (p q : Bool) : (if p then 1 else 0 : ZMod 2) * (if q then 1 else 0) = if p && q then 1 else 0 := by
  cases p <;> cases q <;> rfl

/-- Settles O27: the convolution sum of the polynomials' product, counted modulo 2. -/
theorem productCoefficientsAreParities : Obligations.ProductCoefficientsAreParities := by
  unfold Obligations.ProductCoefficientsAreParities
  intro a b n
  have hcoeff := coeff_toPoly (clmul a b) n
  rw [toPoly_clmul, coeff_mul,
    Finset.Nat.sum_antidiagonal_eq_sum_range_succ fun i j => (toPoly a).coeff i * (toPoly b).coeff j] at hcoeff
  simp only [coeff_toPoly, ite_mul_ite, sum_ite_eq_countP] at hcoeff
  rw [Bool.eq_iff_iff, decide_eq_true_iff, ← Nat.odd_iff, ← ZMod.natCast_eq_one_iff_odd, hcoeff]
  cases (clmul a b).testBit n <;> simp

/-! ### Squares -/

theorem toPoly_clmul_self (a : Poly) : toPoly (clmul a a) = expand (ZMod 2) 2 (toPoly a) := by
  rw [toPoly_clmul, ZMod.expand_card, sq]

/-- Squaring spreads the bits to the even positions (R158). -/
theorem testBit_clmul_self (a : Poly) (n : Nat) :
    (clmul a a).testBit (2 * n) = a.testBit n ∧ (clmul a a).testBit (2 * n + 1) = false := by
  have heven := coeff_expand_mul' two_pos (toPoly a) n
  have hodd := coeff_expand two_pos (toPoly a) (2 * n + 1)
  rw [← toPoly_clmul_self, coeff_toPoly, coeff_toPoly, bitCoeff_inj] at heven
  rw [← toPoly_clmul_self, coeff_toPoly, if_neg (show ¬ 2 ∣ 2 * n + 1 by omega)] at hodd
  exact ⟨heven, by simpa using hodd⟩

end Sys2Proof.Machine
end

