-- ==== Sys2Proof/Proofs/DivisionLaws.lean ====
section
/-! PROOF. Reversal bit by bit (O26), and division (O28): every pass keeps the identity `a = clmul(q, b) ^ r`, and a quotient
and a short remainder that meet it are the only ones, since a non-zero multiple of `b` is not shorter than `b`. -/

namespace Sys2Proof.Machine

/-! ### Masking and reversal (R150, R151) -/

theorem mask_of_bitlen_le {a : Poly} {w : Nat} (h : bitlen a ≤ w) : mask a w = a := by
  rw [mask_eq_mod, Nat.mod_eq_of_lt (bitlen_le_iff.1 h)]

theorem mask_mask (a : Poly) (w : Nat) : mask (mask a w) w = mask a w := by
  rw [mask_eq_mod, mask_eq_mod, Nat.mod_mod]

/-- The bits of a reversal, those from `w` up with them. -/
theorem testBit_brev_eq (a : Poly) (w n : Nat) :
    (brev a w).testBit n = (decide (n < w) && a.testBit (w - 1 - n)) := by
  by_cases h : n < w
  · simp [testBit_brev a h, h]
  · simpa [h] using Nat.testBit_lt_two_pow ((brev_lt a w).trans_le (Nat.pow_le_pow_right (by omega) (Nat.le_of_not_lt h)))

theorem brev_brev (a : Poly) (w : Nat) : brev (brev a w) w = mask a w := by
  refine Nat.eq_of_testBit_eq fun n => ?_
  rw [testBit_brev_eq, testBit_brev_eq, mask_eq_mod, Nat.testBit_mod_two_pow]
  by_cases h : n < w
  · simp [h, show w - 1 - n < w by omega, show w - 1 - (w - 1 - n) = n by omega]
  · simp [h]

/-- Settles O26. -/
theorem reversalMovesEachBit : Obligations.ReversalMovesEachBit := by
  unfold Obligations.ReversalMovesEachBit
  exact fun a w => ⟨brev_lt a w, fun n hn => testBit_brev a hn⟩

/-! ### Degrees -/

theorem eq_zero_or_deg_lt_iff {r : Poly} {n : Nat} : r = 0 ∨ deg r < n ↔ r < 2 ^ n := by
  by_cases h : r = 0
  · simp [h]
  · simp [h, deg_lt_iff]

theorem bitlen_lt_bitlen_iff {r b : Poly} (hb : b ≠ 0) : bitlen r < bitlen b ↔ r < 2 ^ deg b := by
  rw [bitlen_of_ne hb, Nat.lt_succ_iff, bitlen_le_iff]

/-- A shorter summand leaves the degree. -/
theorem deg_xor_of_lt {v r : Poly} (hv : v ≠ 0) (h : r < 2 ^ deg v) : deg (v ^^^ r) = deg v := by
  have hbit : (v ^^^ r).testBit (deg v) = true := by
    rw [Nat.testBit_xor, testBit_deg hv, Nat.testBit_lt_two_pow h, Bool.xor_false]
  have hle : 2 ^ deg v ≤ v ^^^ r := Nat.ge_two_pow_of_testBit hbit
  have hlt : v ^^^ r < 2 ^ (deg v + 1) :=
    Nat.xor_lt_two_pow (lt_two_pow_deg_succ v) (h.trans (Nat.pow_lt_pow_right (by omega) (by omega)))
  exact (Nat.log2_eq_iff ((Nat.two_pow_pos _).trans_le hle).ne').2 ⟨hle, hlt⟩

theorem two_pow_deg_le_two_pow_deg_clmul {q b : Poly} (hq : q ≠ 0) (hb : b ≠ 0) : 2 ^ deg b ≤ 2 ^ deg (clmul q b) := by
  rw [deg_clmul hq hb]
  exact Nat.pow_le_pow_right (by omega) (by omega)

theorem two_pow_deg_le_clmul {q b : Poly} (hq : q ≠ 0) (hb : b ≠ 0) : 2 ^ deg b ≤ clmul q b :=
  (two_pow_deg_le_two_pow_deg_clmul hq hb).trans (two_pow_deg_le (clmul_ne_zero hq hb))

/-! ### The division identity (R153, R154) -/

theorem divPass_identity (b : Poly) (d : DivState) :
    clmul (divPass b d).quot b ^^^ (divPass b d).rem = clmul d.quot b ^^^ d.rem := by
  by_cases h : d.rem ≠ 0 ∧ deg b ≤ deg d.rem
  · rw [divPass_of_open h, xor_clmul, Nat.one_shiftLeft, two_pow_clmul, Nat.xor_assoc, Nat.xor_comm d.rem,
      Nat.xor_xor_cancel_left]
  · rw [divPass_of_ended h]

theorem divPasses_identity (a b : Poly) (n : Nat) : clmul (divPasses a b n).quot b ^^^ (divPasses a b n).rem = a := by
  induction n with
  | zero => simp [divPasses]
  | succ n ih => rw [divPasses, divPass_identity, ih]

theorem clmul_pdiv_xor_prem (a b : Poly) : clmul (pdiv a b) b ^^^ prem a b = a := divPasses_identity a b (bitlen a)

/-- Two divisions of one dividend differ by a multiple of `b` that is shorter than `b`, which is 0. -/
theorem division_unique {b q q' r r' : Poly} (hb : b ≠ 0) (h : clmul q b ^^^ r = clmul q' b ^^^ r') (hr : r < 2 ^ deg b)
    (hr' : r' < 2 ^ deg b) : q = q' ∧ r = r' := by
  have hdiff : clmul (q ^^^ q') b = r ^^^ r' := by
    have hsum : (clmul q b ^^^ r) ^^^ (clmul q' b ^^^ r') = 0 := Nat.xor_eq_zero_iff.2 h
    rw [xor_clmul, ← Nat.xor_eq_zero_iff, ← hsum]
    ac_rfl
  have hq : q = q' := by
    by_contra hne
    exact absurd (hdiff ▸ Nat.xor_lt_two_pow hr hr')
      (Nat.not_lt.2 (two_pow_deg_le_clmul (mt Nat.xor_eq_zero_iff.1 hne) hb))
  subst hq
  exact ⟨rfl, Nat.xor_right_injective h⟩

theorem pdiv_prem_unique {a b q r : Poly} (hb : b ≠ 0) (h : a = clmul q b ^^^ r) (hr : r < 2 ^ deg b) :
    q = pdiv a b ∧ r = prem a b :=
  division_unique hb (h.symm.trans (clmul_pdiv_xor_prem a b).symm) hr (prem_lt_two_pow_deg a hb)

theorem division_of_short {a b : Poly} (hb : b ≠ 0) (h : a < 2 ^ deg b) : pdiv a b = 0 ∧ prem a b = a := by
  obtain ⟨hq, hr⟩ := pdiv_prem_unique (q := 0) hb (by rw [zero_clmul, Nat.zero_xor]) h
  exact ⟨hq.symm, hr.symm⟩

theorem division_by_one (a : Poly) : pdiv a 1 = a ∧ prem a 1 = 0 := by
  obtain ⟨hq, hr⟩ := pdiv_prem_unique (a := a) (q := a) (r := 0) one_ne_zero (by simp) (Nat.two_pow_pos _)
  exact ⟨hq.symm, hr.symm⟩

/-- The dividend has the degree of `clmul(q, b)`, since the remainder is shorter. -/
theorem deg_pdiv {a b : Poly} (hb : b ≠ 0) (h : 2 ^ deg b ≤ a) : pdiv a b ≠ 0 ∧ deg (pdiv a b) = deg a - deg b := by
  have hid := clmul_pdiv_xor_prem a b
  have hrem := prem_lt_two_pow_deg a hb
  have hq : pdiv a b ≠ 0 := by
    intro h0
    rw [h0, zero_clmul, Nat.zero_xor] at hid
    exact Nat.not_lt.2 h (hid ▸ hrem)
  have hdeg := deg_xor_of_lt (clmul_ne_zero hq hb) (hrem.trans_le (two_pow_deg_le_two_pow_deg_clmul hq hb))
  rw [hid, deg_clmul hq hb] at hdeg
  exact ⟨hq, by omega⟩

/-- Settles O28: existence from the loop's identity, everything else from the degree of a product. -/
theorem divisionAlgorithmIsCorrect : Obligations.DivisionAlgorithmIsCorrect := by
  unfold Obligations.DivisionAlgorithmIsCorrect
  intro a b hb
  refine ⟨(clmul_pdiv_xor_prem a b).symm, eq_zero_or_deg_lt_iff.2 (prem_lt_two_pow_deg a hb),
    fun h => division_of_short hb (eq_zero_or_deg_lt_iff.1 h), fun ha h => ?_, division_by_one a,
    fun q r h hr => pdiv_prem_unique hb h (eq_zero_or_deg_lt_iff.1 hr)⟩
  exact deg_pdiv hb ((Nat.pow_le_pow_right (by omega) h).trans (two_pow_deg_le ha))

end Sys2Proof.Machine
end

