-- ==== Sys2Proof/Proofs/CommandOutcomes.lean ====
section
/-! PROOF. The ways a command can end, as the predicates of the statements, and which words spell a row's command: shared by
the statements of all commands. -/

namespace Sys2Proof.Machine

open Sys2Proof.Claims

/-! ### How a command ends (R256, R257) -/

theorem raise_fails (c : ErrCode) (s : State) : Fails c.bits s (complete (recordError c s.cmdl s)) :=
  ⟨recordError_readReg c s.cmdl s, ⟨recordError_resValid .., recordError_readSlot c s.cmdl s⟩,
    recordError_recorded c s.cmdl s, ⟨rfl, rfl⟩, (CommandEffect.error c).controlKept⟩

theorem writeReg_delivers (rd : RegIdx) (v : Poly) (s : State) : Delivers rd v s (complete (s.writeReg rd v)) :=
  ⟨s.readReg_writeReg_same rd v, fun i hi => s.readReg_writeReg_ne rd i v hi, ⟨rfl, fun _ => rfl⟩, ⟨rfl, rfl, rfl, rfl⟩,
    ⟨rfl, rfl⟩, (CommandEffect.reg rd v).controlKept⟩

/-- The value a command has written is what its destination then reads. -/
theorem readReg_complete_writeReg (rd : RegIdx) (v : Poly) (s : State) : (complete (s.writeReg rd v)).readReg rd = v :=
  s.readReg_writeReg_same rd v

/-! ### The words of a row (R124, R125) -/

theorem opField_eq_of_and_eq_matchWord {w : Word} {o : Op} (h : w &&& 0xFC000000#32 = o.matchWord) : opField w = o.code := by
  rw [← fieldsWord_fields w, show 0xFC000000#32 = fieldsWord (.allOnes 6) 0 0 0 0 0 by rfl, fieldsWord_and,
    matchWord_eq_fieldsWord, fieldsWord_inj, BitVec.and_allOnes] at h
  exact h.1

/-- A word with a row's `OP` that its mask does not match is illegal. -/
theorem decode_of_and_maskWord_ne {w : Word} {o : Op} (hop : opField w = o.code) (h : w &&& o.maskWord ≠ o.matchWord) :
    decode w = .illegal .nonzeroField := by
  simp [decode, hop, ofCode_code, h]

theorem engineStep_of_illegal {s : State} {why : Illegal} (h : decode s.cmdl = .illegal why) :
    engineStep s = .next (complete (recordError .illegal s.cmdl s)) := by
  simp [engineStep, h]

theorem engineStepGives_of_illegal {s : State} {why : Illegal} (hb : s.busy = true) (h : decode s.cmdl = .illegal why) :
    EngineStepGives (Fails 0x01#8) s := by
  refine ⟨fun hs => ⟨_, ?_, raise_fails .illegal s⟩, fun rest hs => ⟨_, ?_, raise_fails .illegal (s.withTurns rest)⟩⟩
  · exact (step_nil_busy hs hb).trans (engineStep_of_illegal h)
  · exact (step_engine_busy hs hb).trans (engineStep_of_illegal (s := s.withTurns rest) h)

/-- A row's `match` and `mask` decide which words with its `OP` spell its command; the others raise `E_ILLEGAL`. -/
theorem spelledBy (o : Op) : SpelledBy o o.matchWord o.maskWord := by
  intro w hw
  have hop : opField w = o.code := opField_eq_of_and_eq_matchWord hw
  refine ⟨fun hm => ⟨_, decode_eq_cmd_iff.2 ⟨o, ofCode_of_and_maskWord hm, hm, rfl⟩, op_build ..⟩, fun hm => ?_⟩
  have hill := decode_of_and_maskWord_ne hop hm
  exact ⟨⟨_, hill⟩, fun s hb hs => engineStepGives_of_illegal hb (hs ▸ hill)⟩

end Sys2Proof.Machine
end

