-- ==== Sys2Proof/Proofs/LibraryCommands.lean ====
section
/-! PROOF. The five commands of the GF(2) library (O14 to O18) and the library's laws (O29). Each command's check is the
statement's own condition; what it delivers is a law of the arithmetic. -/

namespace Sys2Proof.Machine

open Sys2Proof.Claims

/-! ### PMASK (R156) -/

/-- Settles O14. -/
theorem pmaskKeepsTheLowBits : Obligations.PmaskKeepsTheLowBits := by
  unfold Obligations.PmaskKeepsTheLowBits
  refine ⟨spelledBy .pmask, fun s rd rs1 imm => ⟨_, exec_pmask_eq rd rs1 imm s, ?_, fun hfit hle => ?_⟩⟩
  · rw [mask_eq_mod]
    exact writeReg_delivers rd _ s
  · rw [readReg_complete_writeReg, mask_of_bitlen_le ((bitlen_le_iff.2 hfit).trans hle)]

/-! ### PREV (R157) -/

/-- Settles O15. -/
theorem prevReversesTheLowBits : Obligations.PrevReversesTheLowBits := by
  unfold Obligations.PrevReversesTheLowBits
  refine ⟨spelledBy .prev, fun s rd rs1 imm => ⟨fun hle => ?_, fun hlt => ?_⟩⟩
  · refine ⟨_, (exec_prev_eq rd rs1 imm s).trans (if_neg (Nat.not_lt.2 hle)), ?_, fun n => ?_⟩
    · rw [readReg_complete_writeReg]
      exact writeReg_delivers rd _ s
    · rw [readReg_complete_writeReg, testBit_brev_eq]
  · exact ⟨_, (exec_prev_eq rd rs1 imm s).trans (if_pos hlt), raise_fails .width s⟩

/-! ### PMUL (R158) -/

theorem exec_pmul_eq (rd rs1 rs2 : RegIdx) (s : State) :
    exec (.pmul rd rs1 rs2) s = writeChecked rd (clmul (s.readReg rs1) (s.readReg rs2)) s := rfl

/-- The product fits when an operand is 0 or the widths allow it. -/
theorem bitlen_clmul_le {a b : Poly} {n : Nat} (h : a = 0 ∨ b = 0 ∨ bitlen a + bitlen b ≤ n + 1) :
    bitlen (clmul a b) ≤ n := by
  by_cases ha : a = 0
  · simp [ha, bitlen_zero]
  by_cases hb : b = 0
  · simp [hb, bitlen_zero]
  have hsum : bitlen a + bitlen b ≤ n + 1 := by simpa [ha, hb] using h
  rw [bitlen_clmul ha hb]
  omega

/-- Settles O16. -/
theorem pmulStoresTheExactProduct : Obligations.PmulStoresTheExactProduct := by
  unfold Obligations.PmulStoresTheExactProduct
  refine ⟨spelledBy .pmul, fun s rd rs1 rs2 => ⟨fun h => ?_, fun ⟨ha, hb, hwide⟩ => ?_⟩⟩
  · refine ⟨_, writeChecked_of_fits (bitlen_clmul_le h), writeReg_delivers rd _ s, ?_⟩
    rw [readReg_complete_writeReg]
    refine ⟨?_, fun h1 => ?_, fun heq n => ?_⟩
    · rintro (h0 | h0) <;> simp [h0]
    · rw [h1, one_clmul]
    · rw [← heq]
      exact testBit_clmul_self _ n
  · exact ⟨_, writeChecked_of_wide (by rw [bitlen_clmul ha hb]; omega), raise_fails .width s⟩

/-! ### PDIV and PREM (R159, R160) -/

theorem exec_pdiv_of_ne (rd rs1 : RegIdx) {rs2 : RegIdx} {s : State} (h : s.readReg rs2 ≠ 0) : exec (.pdiv rd rs1 rs2) s =
    .next (complete (s.writeReg rd (pdiv (s.readReg rs1) (s.readReg rs2)))) := withDivisor_of_ne h s _

theorem exec_prem_of_ne (rd rs1 : RegIdx) {rs2 : RegIdx} {s : State} (h : s.readReg rs2 ≠ 0) : exec (.prem rd rs1 rs2) s =
    .next (complete (s.writeReg rd (prem (s.readReg rs1) (s.readReg rs2)))) := withDivisor_of_ne h s _

theorem withDivisor_zero_fails {d : Poly} (h : d = 0) (s : State) (k : Host.Outcome State Fault Refusal) :
    ∃ t, withDivisor d s k = .next t ∧ Fails 0x02#8 s t := by
  rw [h, withDivisor_zero]
  exact ⟨_, rfl, raise_fails .zdiv s⟩

theorem exec_pdiv_zero (rd rs1 : RegIdx) {rs2 : RegIdx} {s : State} (h : s.readReg rs2 = 0) :
    ∃ t, exec (.pdiv rd rs1 rs2) s = .next t ∧ Fails 0x02#8 s t := withDivisor_zero_fails h s _

theorem exec_prem_zero (rd rs1 : RegIdx) {rs2 : RegIdx} {s : State} (h : s.readReg rs2 = 0) :
    ∃ t, exec (.prem rd rs1 rs2) s = .next t ∧ Fails 0x02#8 s t := withDivisor_zero_fails h s _

theorem bitlen_prem_lt (a : Poly) {b : Poly} (hb : b ≠ 0) : bitlen (prem a b) < bitlen b :=
  (bitlen_lt_bitlen_iff hb).2 (prem_lt_two_pow_deg a hb)

/-- Settles O17: the remainder that goes with the quotient is `prem`. -/
theorem pdivStoresTheQuotient : Obligations.PdivStoresTheQuotient := by
  unfold Obligations.PdivStoresTheQuotient
  refine ⟨spelledBy .pdiv, fun s rd rs1 rs2 => ⟨fun hb => ?_, exec_pdiv_zero rd rs1⟩⟩
  refine ⟨_, prem (s.readReg rs1) (s.readReg rs2), exec_pdiv_of_ne rd rs1 hb, writeReg_delivers rd _ s, ?_,
    bitlen_prem_lt _ hb⟩
  rw [readReg_complete_writeReg, clmul_pdiv_xor_prem]

/-- Settles O18: the quotient that goes with the remainder is `pdiv`. -/
theorem premStoresTheRemainder : Obligations.PremStoresTheRemainder := by
  unfold Obligations.PremStoresTheRemainder
  refine ⟨spelledBy .prem, fun s rd rs1 rs2 => ⟨fun hb => ?_, exec_prem_zero rd rs1⟩⟩
  refine ⟨_, pdiv (s.readReg rs1) (s.readReg rs2), exec_prem_of_ne rd rs1 hb, writeReg_delivers rd _ s, ?_⟩
  rw [readReg_complete_writeReg, clmul_pdiv_xor_prem]
  exact ⟨rfl, bitlen_prem_lt _ hb⟩

/-! ### The laws (R155) -/

/-- Settles O29. -/
theorem libraryLawsHold : Obligations.LibraryLawsHold := by
  unfold Obligations.LibraryLawsHold
  refine ⟨fun a b hb => ⟨clmul_pdiv_xor_prem a b, eq_zero_or_deg_lt_iff.2 (prem_lt_two_pow_deg a hb)⟩,
    fun a w => ⟨brev_brev a w, fun h => (brev_brev a w).trans (mask_of_bitlen_le h)⟩, mask_mask,
    fun a b => ⟨clmul_comm a b, fun ha hb => ⟨clmul_ne_zero ha hb, deg_clmul ha hb⟩⟩,
    fun s rd rs1 rs2 h => ⟨exec_pdiv_zero rd rs1 h, exec_prem_zero rd rs1 h⟩⟩

end Sys2Proof.Machine
end

