-- ==== Sys2Proof/Proofs/SupportCommands.lean ====
section
/-! PROOF. The six support commands (O8 to O13). All but PSHL cannot fail; PSHL's width check is the statement's condition on
the operand's degree. -/

namespace Sys2Proof.Machine

open Sys2Proof.Claims

/-! ### NOP (R180) -/

theorem exec_nop_eq (s : State) : exec .nop s = .next (complete s) := rfl

/-- Settles O8. -/
theorem nopOnlyCompletes : Obligations.NopOnlyCompletes := by
  unfold Obligations.NopOnlyCompletes
  exact ⟨spelledBy .nop, fun s => ⟨_, exec_nop_eq s, complete_readReg s, ⟨rfl, complete_readSlot s⟩, ⟨rfl, rfl, rfl, rfl⟩,
    ⟨rfl, rfl⟩, CommandEffect.none.controlKept⟩⟩

/-! ### PLI (R181) -/

/-- Settles O9: a 16-bit immediate has no bit from 16 up. -/
theorem pliLoadsItsImmediate : Obligations.PliLoadsItsImmediate := by
  unfold Obligations.PliLoadsItsImmediate
  refine ⟨spelledBy .pli, fun s rd imm => ⟨_, exec_pli_eq rd imm s, writeReg_delivers rd imm s, fun himm n hn => ?_⟩⟩
  have hfit : bitlen imm ≤ 16 := bitlen_le_iff.2 (Nat.lt_succ_of_le himm)
  rw [readReg_complete_writeReg, testBit_of_bitlen_le (hfit.trans hn)]

/-! ### PMOV (R182) -/

theorem exec_pmov_eq (rd rs1 : RegIdx) (s : State) : exec (.pmov rd rs1) s = writeResult rd (s.readReg rs1) s := rfl

/-- Settles O10. -/
theorem pmovCopiesARegister : Obligations.PmovCopiesARegister := by
  unfold Obligations.PmovCopiesARegister
  exact ⟨spelledBy .pmov, fun s rd rs1 => ⟨_, exec_pmov_eq rd rs1 s, writeReg_delivers rd _ s⟩⟩

/-! ### PXOR (R183) -/

theorem exec_pxor_eq (rd rs1 rs2 : RegIdx) (s : State) :
    exec (.pxor rd rs1 rs2) s = writeResult rd (s.readReg rs1 ^^^ s.readReg rs2) s := rfl

theorem bitlen_xor_le (a b : Poly) : bitlen (a ^^^ b) ≤ max (bitlen a) (bitlen b) :=
  bitlen_le_iff.2 (Nat.xor_lt_two_pow (bitlen_le_iff.1 (le_max_left _ _)) (bitlen_le_iff.1 (le_max_right _ _)))

/-- Settles O11. -/
theorem pxorAddsCoefficientwise : Obligations.PxorAddsCoefficientwise := by
  unfold Obligations.PxorAddsCoefficientwise
  refine ⟨spelledBy .pxor, fun s rd rs1 rs2 => ⟨_, exec_pxor_eq rd rs1 rs2 s, writeReg_delivers rd _ s, ?_⟩⟩
  rw [readReg_complete_writeReg]
  refine ⟨Nat.testBit_xor _ _, fun heq => ?_, bitlen_xor_le _ _⟩
  rw [heq, Nat.xor_self]

/-! ### PSHL (R184) -/

theorem bitlen_shiftLeft {a : Poly} (h : a ≠ 0) (n : Nat) : bitlen (a <<< n) = deg a + n + 1 := by
  have hpow : deg (2 ^ n) = n := Nat.log2_two_pow
  have hne : 2 ^ n ≠ 0 := (Nat.two_pow_pos n).ne'
  rw [← two_pow_clmul, bitlen_of_ne (clmul_ne_zero hne h), deg_clmul hne h, hpow, Nat.add_comm n]

/-- PSHL's width check is on the operand's degree, and 0 passes it whatever the shift. -/
theorem bitlen_shiftLeft_le_iff {a : Poly} {n w : Nat} : bitlen (a <<< n) ≤ w ↔ a = 0 ∨ deg a + n < w := by
  by_cases h : a = 0
  · simp [h, bitlen_zero]
  · simp [h, bitlen_shiftLeft h]

/-- Settles O12. -/
theorem pshlShiftsLeftOrRefuses : Obligations.PshlShiftsLeftOrRefuses := by
  unfold Obligations.PshlShiftsLeftOrRefuses
  refine ⟨spelledBy .pshl, fun s rd rs1 imm => ⟨fun h => ?_, fun ⟨hne, hwide⟩ => ?_⟩⟩
  · rw [← Nat.shiftLeft_eq]
    exact ⟨_, (exec_pshl_eq ..).trans (writeChecked_of_fits (bitlen_shiftLeft_le_iff.2 h)), writeReg_delivers rd _ s⟩
  · have hlen : s.cfg.polyW < bitlen (s.readReg rs1 <<< imm) := by rw [bitlen_shiftLeft hne]; omega
    exact ⟨_, (exec_pshl_eq ..).trans (writeChecked_of_wide hlen), raise_fails .width s⟩

/-! ### PSHR (R185) -/

theorem exec_pshr_eq (rd rs1 : RegIdx) (imm : Nat) (s : State) :
    exec (.pshr rd rs1 imm) s = writeResult rd (s.readReg rs1 >>> imm) s := rfl

/-- Settles O13. -/
theorem pshrDropsTheLowTerms : Obligations.PshrDropsTheLowTerms := by
  unfold Obligations.PshrDropsTheLowTerms
  refine ⟨spelledBy .pshr, fun s rd rs1 imm => ⟨_, exec_pshr_eq rd rs1 imm s, ?_, fun hle => ?_⟩⟩
  · rw [Nat.shiftRight_eq_div_pow]
    exact writeReg_delivers rd _ s
  · rw [readReg_complete_writeReg, Nat.shiftRight_eq_div_pow, Nat.div_eq_of_lt (bitlen_le_iff.1 hle)]

end Sys2Proof.Machine
end

