-- ==== Sys2Proof/Proofs/DerivedConstants.lean ====
section
/-! PROOF. The derived constants as the formulas of R212 to R218, why folding with one keeps the remainder (O31), and the two
views of a result (O32). -/

namespace Sys2Proof.Machine

/-! ### The formulas, with `2^n` for `1 << n` (R212 to R216) -/

theorem barrett_eq (p : Poly) : barrett p = pdiv (2 ^ 64) p := by rw [barrett, Nat.one_shiftLeft]

theorem barrettReflected_eq (p : Poly) : barrettReflected p = brev (pdiv (2 ^ 64) p >>> 1) 32 := by
  rw [barrettReflected, barrett_eq]

theorem powerRemainder_eq (e : Nat) (p : Poly) : powerRemainder e p = prem (2 ^ e) p := by
  rw [powerRemainder, Nat.one_shiftLeft]

theorem foldConstant_eq (n : Nat) (p : Poly) : foldConstant n p = brev (prem (2 ^ (n - 1)) p) 32 := by
  rw [foldConstant, powerRemainder_eq]

/-- Reversing after a shift by one keeps bits 1 to 32, with bit 32 in bit 0 (R212, R214). -/
theorem testBit_brev_shiftRight_one (a : Poly) (n : Nat) :
    (brev (a >>> 1) 32).testBit n = (decide (n < 32) && a.testBit (32 - n)) := by
  rw [testBit_brev_eq, Nat.testBit_shiftRight]
  by_cases h : n < 32
  · rw [show 1 + (32 - 1 - n) = 32 - n by omega]
  · simp [h]

/-! ### Folding (R217) -/

/-- A multiple of the divisor adds nothing to the remainder. -/
theorem prem_clmul_xor {p : Poly} (hp : p ≠ 0) (q b : Poly) : prem (clmul q p ^^^ b) p = prem b p := by
  have hdiv : clmul q p ^^^ b = clmul (q ^^^ pdiv b p) p ^^^ prem b p := by
    rw [xor_clmul, Nat.xor_assoc, clmul_pdiv_xor_prem]
  exact (pdiv_prem_unique hp hdiv (prem_lt_two_pow_deg b hp)).2.symm

/-- A shift by `n` is a multiple of `P` plus the product with `x^n mod P`. -/
theorem shiftLeft_eq_clmul_xor_fold (a n p : Nat) :
    a <<< n = clmul (clmul a (pdiv (2 ^ n) p)) p ^^^ clmul a (prem (2 ^ n) p) := by
  rw [clmul_assoc, ← clmul_xor, clmul_pdiv_xor_prem, clmul_comm, two_pow_clmul]

/-- Settles O31: the two dividends differ by a multiple of `P`. -/
theorem foldingKeepsTheRemainder : Obligations.FoldingKeepsTheRemainder := by
  unfold Obligations.FoldingKeepsTheRemainder
  intro p a c n hp
  rw [shiftLeft_eq_clmul_xor_fold a n p, Nat.xor_assoc, prem_clmul_xor hp]

/-! ### The views of a result (R220) -/

theorem toNat_viewMasked (v : Poly) : (viewMasked v).toNat = mask v 32 := by
  rw [viewMasked_eq_ofNat, BitVec.toNat_ofNat, mask_eq_mod]

theorem toNat_viewReversed (v : Poly) : (viewReversed v).toNat = brev v 32 := by
  rw [viewReversed_eq_reverse, brev_32_eq_reverse]

/-- Settles O32. -/
theorem viewsOfAResult : Obligations.ViewsOfAResult := by
  unfold Obligations.ViewsOfAResult
  refine fun v => ⟨viewMasked_eq_ofNat v, viewReversed_eq_reverse v, toNat_viewMasked v, toNat_viewReversed v, ?_, ?_⟩
  · rw [toNat_viewMasked, viewMasked, mask_mask, viewMasked]
  · rw [toNat_viewReversed, viewReversed, brev_brev, viewMasked]

end Sys2Proof.Machine
end

