-- ==== Sys2Proof/Proofs/DeriveCommands.lean ====
section
/-! PROOF. The six constant derivation commands (O19 to O24) and that the five single ones give DERIVE's slots (O25). -/

namespace Sys2Proof.Machine

open Sys2Proof.Claims

/-! ### GPOLYR (R212) -/

theorem exec_gpolyr_eq (rd rs1 : RegIdx) (s : State) :
    exec (.gpolyr rd rs1) s = writeResult rd (reflectedGenerator (s.readReg rs1)) s := rfl

/-- Settles O19. -/
theorem gpolyrReflectsTheGenerator : Obligations.GpolyrReflectsTheGenerator := by
  unfold Obligations.GpolyrReflectsTheGenerator
  refine ⟨spelledBy .gpolyr, fun s rd rs1 => ⟨_, exec_gpolyr_eq rd rs1 s, writeReg_delivers rd _ s, fun n => ?_⟩⟩
  rw [readReg_complete_writeReg, reflectedGenerator, testBit_brev_shiftRight_one]

/-! ### The single commands that divide, for a generator that is not 0 (R213 to R216) -/

section Generator

variable {rs1 : RegIdx} {s : State} (rd : RegIdx) (hp : s.readReg rs1 ≠ 0)
include hp

theorem exec_gbar_of_ne : exec (.gbar rd rs1) s = .next (complete (s.writeReg rd (barrett (s.readReg rs1)))) :=
  withDivisor_of_ne hp s _

theorem exec_gbarr_of_ne :
    exec (.gbarr rd rs1) s = .next (complete (s.writeReg rd (barrettReflected (s.readReg rs1)))) :=
  withDivisor_of_ne hp s _

theorem exec_gremx_of_ne (imm : Nat) :
    exec (.gremx rd rs1 imm) s = .next (complete (s.writeReg rd (powerRemainder imm (s.readReg rs1)))) :=
  withDivisor_of_ne hp s _

theorem exec_gfoldr_of_ne {imm : Nat} (hn : imm ≠ 0) :
    exec (.gfoldr rd rs1 imm) s = .next (complete (s.writeReg rd (foldConstant imm (s.readReg rs1)))) :=
  (withDivisor_of_ne hp s _).trans (withFoldWidth_of_ne hn s _)

theorem exec_gfoldr_width_zero : exec (.gfoldr rd rs1 0) s = .next (complete (recordError .operand s.cmdl s)) :=
  (withDivisor_of_ne hp s _).trans (withFoldWidth_zero s _)

end Generator

/-- Settles O20: the quotient is no wider than its dividend, `x^64`. -/
theorem gbarStoresTheBarrettConstant : Obligations.GbarStoresTheBarrettConstant := by
  unfold Obligations.GbarStoresTheBarrettConstant
  refine ⟨spelledBy .gbar, fun s rd rs1 => ⟨fun hp => ?_, fun h0 => withDivisor_zero_fails h0 s _⟩⟩
  refine ⟨_, prem (2 ^ 64) (s.readReg rs1), exec_gbar_of_ne rd hp, ?_⟩
  rw [readReg_complete_writeReg, ← barrett_eq]
  refine ⟨writeReg_delivers rd _ s, ?_, bitlen_prem_lt _ hp, bitlen_le_iff.2 (barrett_lt hp)⟩
  rw [barrett_eq, clmul_pdiv_xor_prem]

/-- Settles O21. -/
theorem gbarrReflectsTheBarrettConstant : Obligations.GbarrReflectsTheBarrettConstant := by
  unfold Obligations.GbarrReflectsTheBarrettConstant
  refine ⟨spelledBy .gbarr, fun s rd rs1 => ⟨fun hp => ?_, fun h0 => withDivisor_zero_fails h0 s _⟩⟩
  refine ⟨_, exec_gbarr_of_ne rd hp, ?_⟩
  rw [barrettReflected_eq, readReg_complete_writeReg]
  exact ⟨writeReg_delivers rd _ s, testBit_brev_shiftRight_one _⟩

/-- Settles O22: the divisor's check comes before the width's (R260). -/
theorem gfoldrStoresTheFoldConstant : Obligations.GfoldrStoresTheFoldConstant := by
  unfold Obligations.GfoldrStoresTheFoldConstant
  refine ⟨spelledBy .gfoldr, fun s rd rs1 imm => ⟨?_, ?_, fun h0 => withDivisor_zero_fails h0 s _⟩⟩
  · rintro ⟨hp, hn⟩
    refine ⟨_, exec_gfoldr_of_ne rd hp hn, ?_⟩
    rw [foldConstant_eq, readReg_complete_writeReg]
    exact ⟨writeReg_delivers rd _ s, testBit_brev_eq _ 32⟩
  · rintro ⟨hp, rfl⟩
    exact ⟨_, exec_gfoldr_width_zero rd hp, raise_fails .operand s⟩

/-- Settles O23: a power below the generator's degree is its own remainder. -/
theorem gremxStoresThePowerRemainder : Obligations.GremxStoresThePowerRemainder := by
  unfold Obligations.GremxStoresThePowerRemainder
  refine ⟨spelledBy .gremx, fun s rd rs1 imm => ⟨fun hp => ?_, fun h0 => withDivisor_zero_fails h0 s _⟩⟩
  refine ⟨_, exec_gremx_of_ne rd hp imm, ?_⟩
  rw [powerRemainder_eq, readReg_complete_writeReg]
  refine ⟨writeReg_delivers rd _ s, bitlen_prem_lt _ hp, fun hlt => ?_⟩
  exact (division_of_short hp (Nat.pow_lt_pow_right (by omega) hlt)).2

/-! ### DERIVE (R218, R219) -/

theorem exec_derive_of_zero {rs1 : RegIdx} {s : State} (h0 : s.readReg rs1 = 0) :
    exec (.derive rs1) s = raise .zdiv (s.writeTable (Vector.replicate 16 0) 0x0000#16) := if_pos h0

theorem exec_derive_of_ne {rs1 : RegIdx} {s : State} (hp : s.readReg rs1 ≠ 0) :
    exec (.derive rs1) s = .next (complete (s.writeTable (deriveTable (s.readReg rs1)) 0xFFFF#16)) := if_neg hp

/-- Settles O24: an error record comes after the table is cleared and leaves it so. -/
theorem deriveFillsOrClearsTheTable : Obligations.DeriveFillsOrClearsTheTable := by
  unfold Obligations.DeriveFillsOrClearsTheTable
  refine ⟨spelledBy .derive, fun s rs1 => ?_⟩
  by_cases hp : s.readReg rs1 = 0
  · obtain ⟨hregs, ⟨hvalid, hslots⟩, herr, hdone, hctrl⟩ :=
      raise_fails .zdiv (s.writeTable (Vector.replicate 16 0) 0x0000#16)
    refine ⟨_, exec_derive_of_zero hp, hregs, hdone, CommandEffect.clear.controlKept,
      fun _ => ⟨fun j => (hslots j).trans ?_, hvalid, herr⟩, fun hne => absurd hp hne⟩
    rw [State.readSlot_writeTable, Fin.getElem_fin, Vector.getElem_replicate]
  · refine ⟨_, exec_derive_of_ne hp, fun _ => rfl, ⟨rfl, rfl⟩, (CommandEffect.table rs1 hp).controlKept,
      fun h0 => absurd h0 hp, fun _ => ⟨rfl, ⟨rfl, rfl, rfl, rfl⟩, ?_⟩⟩
    simp only [complete_readSlot, State.readSlot_writeTable, deriveTable_slot0, deriveTable_slot1, deriveTable_slot2,
      deriveTable_slot3, deriveTable_slot4, deriveTable_slot5, deriveTable_slot6, deriveTable_slot7, deriveTable_slot8,
      deriveTable_slot9, deriveTable_slot10, deriveTable_slot11, deriveTable_slot12, deriveTable_slot13,
      deriveTable_slot14, deriveTable_slot15, reflectedGenerator, barrett_eq, barrettReflected_eq, powerRemainder_eq,
      foldConstant_eq, Nat.reduceSub, and_self]

/-! ### The single commands and DERIVE's slots (R221) -/

/-- After its first five slots the table holds the fold constants of `FOLD_N`, in the order of the widths (R218). -/
theorem deriveTable_foldSlot (p : Poly) (i : Fin 11) :
    (deriveTable p)[(⟨5 + i.val, by omega⟩ : SlotIdx)] = foldConstant foldN[i] p := by
  fin_cases i <;> rfl

theorem foldN_ne_zero : ∀ i : Fin 11, foldN[i] ≠ 0 := by decide

/-- What stands in a slot of the derived table is what a command that stores that value leaves in its register. -/
theorem derivedSlot_eq_storedReg {p v : Poly} {j : SlotIdx} (h : (deriveTable p)[j] = v) (s : State) (valid : BitVec 16)
    (rd : RegIdx) : (complete (s.writeTable (deriveTable p) valid)).readSlot j = (complete (s.writeReg rd v)).readReg rd :=
  h.trans (readReg_complete_writeReg rd v s).symm

/-- Settles O25: both sides hold the same function of the generator. -/
theorem deriveSlotsEqualTheSingleCommands : Obligations.DeriveSlotsEqualTheSingleCommands := by
  unfold Obligations.DeriveSlotsEqualTheSingleCommands
  intro s rd rs1 hp
  exact ⟨_, _, _, _, _, exec_derive_of_ne hp,
    exec_gpolyr_eq rd rs1 s, derivedSlot_eq_storedReg (deriveTable_slot1 _) ..,
    exec_gbar_of_ne rd hp, derivedSlot_eq_storedReg (deriveTable_slot2 _) ..,
    exec_gbarr_of_ne rd hp, derivedSlot_eq_storedReg (deriveTable_slot3 _) ..,
    exec_gremx_of_ne rd hp 64, derivedSlot_eq_storedReg (deriveTable_slot4 _) ..,
    fun i => ⟨_, exec_gfoldr_of_ne rd hp (foldN_ne_zero i), derivedSlot_eq_storedReg (deriveTable_foldSlot _ i) ..⟩⟩

end Sys2Proof.Machine
end

