-- ==== Sys2Proof/Proofs/Exceptions.lean ====
section
/-! PROOF. Errors, completion and the interrupt (spec/60_exceptions.md): the illegal words and what the engine does with
one (O3), the refused accesses of a busy block (O38), the first error is kept (O46), errors block no command (O47), an idle
engine holds the state (O6), every command completes (O7), `irq` (O48, O49). -/

namespace Sys2Proof.Machine

open Sys2Proof.Claims

/-! ### Illegal words (R125, R252) -/

theorem decode_illegal_iff (w : Word) : (∃ why, decode w = .illegal why) ↔
    Op.ofCode (opField w) = none ∨ ∃ o, Op.ofCode (opField w) = some o ∧ w &&& o.maskWord ≠ o.matchWord := by
  unfold decode
  cases Op.ofCode (opField w) with
  | none => simp
  | some o => by_cases hm : w &&& o.maskWord = o.matchWord <;> simp [hm]

theorem ofCode_eq_none_iff : ∀ c : BitVec 6, Op.ofCode c = none ↔ reservedOp c.toNat := by
  unfold reservedOp
  decide

theorem ofCode_eq_some_iff {c : BitVec 6} {o : Op} : Op.ofCode c = some o ↔ c = o.code := by
  refine ⟨fun h => ?_, fun h => h ▸ ofCode_code o⟩
  unfold Op.ofCode at h
  split at h <;> cases h
  all_goals exact BitVec.eq_of_toNat_eq ‹_›

/-- The one-bit field at `n` is the bit itself. -/
theorem extractLsb'_one_eq_zero_iff (w : Word) (n : Nat) : w.extractLsb' n 1 = 0 ↔ w.getLsbD n = false := by
  simp [BitVec.eq_of_getLsbD_eq_iff]

/-- A field that the decoder delivers as a register number is 0 when its bits are. -/
theorem toFin_eq_zero_iff (x : BitVec 3) : x.toFin = 0 ↔ x = 0#3 := (ofFin_eq_zero_iff x.toFin).symm

/-- No field that must be 0 is set exactly when `Z` and the operands the form does not use are 0. -/
theorem not_badField_iff (w : Word) (f : Form) : ¬ badField w f ↔
    w.extractLsb' 16 1 = 0 ∧ UnusedZero f (rdField w) (rs1Field w) (rs2Field w) (immField w) := by
  have hunused (used : Bool) (zero : Prop) : ¬(used = false ∧ ¬ zero) ↔ (used = false → zero) := by
    rw [not_and, not_not]
  simp only [badField, not_or, ne_eq, hunused, Bool.not_eq_true, extractLsb'_one_eq_zero_iff]
  refine and_congr_right fun _ => ?_
  simp only [← toFin_eq_zero_iff]
  exact ⟨fun ⟨hrd, hrs1, hrs2, himm⟩ => ⟨hrd, hrs1, hrs2, fun h => (immBits_eq_zero_iff w).1 (himm h)⟩,
    fun h => ⟨h.rd, h.rs1, h.rs2, fun hu => (immBits_eq_zero_iff w).2 (h.imm hu)⟩⟩

/-- Among the words with a row's `OP`, its mask picks out those with a field that must be 0 and is not. -/
theorem badField_iff_of_opField {w : Word} {o : Op} (hop : opField w = o.code) :
    badField w o.form ↔ w &&& o.maskWord ≠ o.matchWord := by
  rw [ne_eq, and_maskWord_eq_matchWord_iff, ← not_badField_iff, not_and_not_right]
  exact ⟨fun h _ => h, fun h => h hop⟩

theorem decode_illegal_iff_illegalWord (w : Word) : (∃ why, decode w = .illegal why) ↔ IllegalWord w := by
  rw [decode_illegal_iff, ofCode_eq_none_iff]
  refine or_congr Iff.rfl (exists_congr fun o => ?_)
  rw [ofCode_eq_some_iff]
  exact and_congr_right fun hop => (badField_iff_of_opField hop).symm

/-- Settles O3: the decoder refuses R252's words, and the engine's step raises its refusal. -/
theorem illegalWordsRaiseEIllegal : Obligations.IllegalWordsRaiseEIllegal := by
  unfold Obligations.IllegalWordsRaiseEIllegal
  refine ⟨decode_illegal_iff_illegalWord, fun s hb hill => ?_⟩
  obtain ⟨why, hwhy⟩ := (decode_illegal_iff_illegalWord s.cmdl).2 hill
  exact engineStepGives_of_illegal hb hwhy

/-! ### GATED accesses while a command is pending (R92, R258) -/

theorem busRead_gated {off : BitVec 12} {s : State} (hb : s.busy = true) (hg : gated off = true) :
    busRead off s = (accessError .busy off false s, 0#32) := by
  rw [busRead, if_pos ⟨hb, hg⟩]

theorem setWidth_ofNat_offset {off : Nat} (h : off < 0x1000) : (BitVec.ofNat 12 off).setWidth 32 = BitVec.ofNat 32 off := by
  apply BitVec.eq_of_toNat_eq
  simp only [BitVec.toNat_setWidth, BitVec.toNat_ofNat]
  omega

theorem accessInfo_read {off : Nat} (h : off < 0x1000) : accessInfo (BitVec.ofNat 12 off) false = BitVec.ofNat 32 off := by
  rw [accessInfo, setWidth_ofNat_offset h]
  exact BitVec.zero_or

/-- An offset does not reach bit 31, so marking a write there adds `2^31` (R47). -/
theorem accessInfo_write {off : Nat} (h : off < 0x1000) :
    accessInfo (BitVec.ofNat 12 off) true = BitVec.ofNat 32 (2 ^ 31 + off) := by
  have hsum : 2 ^ 31 + off = 2 ^ 31 ||| off := Nat.two_pow_add_eq_or_of_lt (i := 31) (by omega) 1
  rw [accessInfo, setWidth_ofNat_offset h, hsum]
  exact (BitVec.ofNat_or ..).symm

/-- Settles O38: the BUSY gate answers with an access error. -/
theorem gatedAccessIsRefusedWhileBusy : Obligations.GatedAccessIsRefusedWhileBusy := by
  unfold Obligations.GatedAccessIsRefusedWhileBusy
  intro s off rest hc hb hw hgated
  have hg : gated (BitVec.ofNat 12 off) = true := (gated_iff hw).2 hgated
  refine ⟨fun hs => ?_, fun d hs => ?_⟩
  · rw [step_rd hc hw.1 hw.2 hs, busRead_gated (s := s.withTurns rest) hb hg, ← accessInfo_read hw.1]
    obtain ⟨herr, hregs, htable, hbusy, hdone, hctrl⟩ :=
      accessError_answer .busy (BitVec.ofNat 12 off) false s rest (.okayRead 0#32)
    exact ⟨_, rfl, herr, hregs, htable, hbusy.trans hb, hdone, hctrl⟩
  · rw [step_wr hc hw.1 hw.2 hs, busWrite_gated (s := s.withTurns rest) d hb hg, ← accessInfo_write hw.1]
    obtain ⟨herr, hregs, htable, hbusy, hdone, hctrl⟩ :=
      accessError_answer .busy (BitVec.ofNat 12 off) true s rest .okayWrite
    exact ⟨_, rfl, herr, hregs, htable, hbusy.trans hb, hdone, hctrl⟩

/-! ### The first error (R256) -/

/-- `ERR` is 1, with the code and information of `s`. -/
def FirstErrorKept (s t : State) : Prop := t.err = true ∧ t.errCode = s.errCode ∧ t.errInfo = s.errInfo

/-- `ERR` is 0, and its code and information with it (R85). -/
def ErrorCleared (t : State) : Prop := t.err = false ∧ t.errCode = 0#8 ∧ t.errInfo = 0#32

/-- The write asks for a reset, or acknowledges the error (R85, R86). -/
def ClearsError (off : BitVec 12) (d : Word) : Prop :=
  (off = 0x008#12 ∧ d.getLsbD 31 = true) ∨ (off = 0x00C#12 ∧ d.getLsbD 2 = true)

section FirstError

variable {s : State} (he : s.err = true)
include he

theorem recordError_firstErrorKept (c : ErrCode) (w : Word) : FirstErrorKept s (recordError c w s) :=
  ⟨recordError_err .., by simp [he], by simp [he]⟩

theorem CommandEffect.firstErrorKept {u : State} (h : CommandEffect s u) : FirstErrorKept s (complete u) := by
  cases h with
  | none => exact ⟨he, rfl, rfl⟩
  | error c => exact recordError_firstErrorKept he c _
  | reg rd v => exact ⟨he, rfl, rfl⟩
  | table rs1 _ => exact ⟨he, rfl, rfl⟩
  | clear => exact recordError_firstErrorKept (s := s.writeTable (Vector.replicate 16 0) 0x0000#16) he .zdiv _

theorem engineTurn_firstErrorKept {t : State} (ht : engineTurn s = .next t) : FirstErrorKept s t := by
  cases hb : s.busy with
  | false =>
    cases (engineTurn_idle hb).symm.trans ht
    exact ⟨he, rfl, rfl⟩
  | true =>
    obtain ⟨u, hu, heff⟩ := engineStep_effect s
    cases ((engineTurn_busy hb).trans hu).symm.trans ht
    exact heff.firstErrorKept he

theorem dataRead_firstErrorKept : FirstErrorKept s (dataRead s).1 := by
  obtain hr | hr := dataRead_cases s <;> rw [hr]
  · exact ⟨he, rfl, rfl⟩
  · exact recordError_firstErrorKept he _ _

theorem dataWrite_firstErrorKept (d : Word) : FirstErrorKept s (dataWrite d s) := by
  obtain ⟨i, -, hr⟩ | hr := dataWrite_cases d s <;> rw [hr]
  · exact ⟨he, rfl, rfl⟩
  · exact recordError_firstErrorKept he _ _

theorem busRead_firstErrorKept (off : BitVec 12) : FirstErrorKept s (busRead off s).1 := by
  obtain ⟨-, -, hr⟩ | ⟨-, -, hr⟩ | ⟨-, -, hr⟩ := busRead_cases off s <;> rw [hr]
  · exact recordError_firstErrorKept he _ _
  · exact dataRead_firstErrorKept he
  · exact ⟨he, rfl, rfl⟩

theorem statusWrite_kept_or_cleared (d : Word) :
    FirstErrorKept s (statusWrite d s) ∨ ErrorCleared (statusWrite d s) ∧ d.getLsbD 2 = true := by
  cases hd : d.getLsbD 2 with
  | true => exact .inr ⟨⟨if_pos hd, if_pos hd, if_pos hd⟩, rfl⟩
  | false =>
    have hnot : ¬ d.getLsbD 2 = true := by rw [hd]; decide
    exact .inl ⟨(if_neg hnot).trans he, if_neg hnot, if_neg hnot⟩

theorem ctrlWrite_kept_or_cleared (d : Word) :
    FirstErrorKept s (ctrlWrite d s) ∨ ErrorCleared (ctrlWrite d s) ∧ d.getLsbD 31 = true := by
  cases hd : d.getLsbD 31 with
  | true =>
    rw [ctrlWrite_of_srst hd]
    exact .inr ⟨⟨rfl, rfl, rfl⟩, rfl⟩
  | false =>
    rw [ctrlWrite_of_not_srst s hd]
    exact .inl ⟨he, rfl, rfl⟩

/-- Of the writes to the window only these two clear a recorded error. -/
theorem busWrite_kept_or_cleared (off : BitVec 12) (d : Word) :
    FirstErrorKept s (busWrite off d s) ∨ ErrorCleared (busWrite off d s) ∧ ClearsError off d := by
  obtain ⟨-, -, hr⟩ | ⟨-, ⟨ho, hr⟩ | ⟨ho, hr⟩ | ⟨-, hr⟩ | ⟨-, hr⟩ | ⟨-, hr⟩ | ⟨-, -, -, -, -, hr⟩⟩ :=
    busWrite_cases off d s <;> rw [hr]
  · exact .inl (recordError_firstErrorKept he _ _)
  · exact (ctrlWrite_kept_or_cleared he d).imp_right fun ⟨hc, hd⟩ => ⟨hc, .inl ⟨ho, hd⟩⟩
  · exact (statusWrite_kept_or_cleared he d).imp_right fun ⟨hc, hd⟩ => ⟨hc, .inr ⟨ho, hd⟩⟩
  · exact .inl ⟨he, rfl, rfl⟩
  · exact .inl ⟨he, rfl, rfl⟩
  · exact .inl (dataWrite_firstErrorKept he d)
  · exact .inl ⟨he, rfl, rfl⟩

/-- The host's turn keeps the first error, or it is an answered write that clears it. -/
theorem hostTurn_kept_or_cleared {tr : Transaction} {t : State} (ht : hostTurn tr s = .next t) :
    FirstErrorKept s t ∨ ErrorCleared t ∧ inWindow s.cfg tr.addr ∧ alignedWord tr ∧
      ∃ v, tr.access = .write v ∧ ClearsError (offsetOf tr.addr) (BitVec.ofNat 32 v) := by
  obtain ⟨-, hr⟩ | ⟨-, -, hr⟩ | ⟨-, -, -, hr⟩ | ⟨hw, ha, v, hv, hr⟩ := hostTurn_cases tr s <;> cases hr.symm.trans ht
  · exact .inl ⟨he, rfl, rfl⟩
  · exact .inl (busRead_firstErrorKept he (offsetOf tr.addr))
  · exact (busWrite_kept_or_cleared he (offsetOf tr.addr) (BitVec.ofNat 32 v)).imp_right
      fun ⟨hc, hclears⟩ => ⟨hc, hw, ha, v, hv, hclears⟩

end FirstError

/-- An answered write at the head of the schedule, in the words of the statements. -/
theorem windowWrite_of_write {s : State} {tr : Transaction} {rest : List Turn} {off v n : Nat}
    (hs : s.turns = .host tr :: rest) (hw : inWindow s.cfg tr.addr) (ha : alignedWord tr) (hv : tr.access = .write v)
    (hlt : off < 0x1000) (ho : offsetOf tr.addr = BitVec.ofNat 12 off) (hbit : (BitVec.ofNat 32 v).getLsbD n = true) :
    WindowWrite off n s := by
  obtain ⟨a, size, acc⟩ := tr
  obtain ⟨rfl, -⟩ := ha
  subst hv
  have hoff : a % 0x1000 = off % 0x1000 := by simpa [offsetOf] using congrArg BitVec.toNat ho
  exact ⟨a, v, rest, hs, hw, hoff.trans (Nat.mod_eq_of_lt hlt), hbit⟩

/-- Settles O46: by the kinds of turn. -/
theorem firstErrorIsKept : Obligations.FirstErrorIsKept := by
  unfold Obligations.FirstErrorIsKept
  intro s t he ht
  obtain ⟨-, hr⟩ | ⟨rest, -, hr⟩ | ⟨tr, rest, hs, hr⟩ | ⟨rest, hs, hr⟩ := step_cases s <;> rw [hr] at ht
  · exact .inl (engineTurn_firstErrorKept he ht)
  · exact .inl (engineTurn_firstErrorKept (s := s.withTurns rest) he ht)
  · obtain hk | ⟨⟨herr, hcode, hinfo⟩, hw, ha, v, hv, hclears⟩ := hostTurn_kept_or_cleared (s := s.withTurns rest) he ht
    · exact .inl hk
    · refine .inr ⟨herr, hcode, hinfo, .inr (hclears.imp ?_ ?_)⟩
      · exact fun ⟨ho, hbit⟩ => windowWrite_of_write hs hw ha hv (by omega) ho hbit
      · exact fun ⟨ho, hbit⟩ => windowWrite_of_write hs hw ha hv (by omega) ho hbit
  · cases ht
    exact .inr ⟨rfl, rfl, rfl, .inl ⟨rest, hs⟩⟩

/-! ### Completion (R257, R271, R272) -/

theorem exec_completes (i : Instr) (s : State) : ∃ t, exec i s = .next t ∧ Completed t ∧ ControlKept s t := by
  obtain ⟨u, hu, heff⟩ := exec_effect i s
  exact ⟨_, hu, ⟨rfl, rfl⟩, heff.controlKept⟩

theorem engineStep_completes (s : State) : ∃ t, engineStep s = .next t ∧ Completed t ∧ ControlKept s t := by
  obtain ⟨u, hu, heff⟩ := engineStep_effect s
  exact ⟨_, hu, ⟨rfl, rfl⟩, heff.controlKept⟩

/-- `s` with another error state. -/
def State.withErrors (s : State) (err errOvf : Bool) (code : BitVec 8) (info : Word) : State :=
  { s with err := err, errOvf := errOvf, errCode := code, errInfo := info }

theorem sameData_withErrors (s : State) (err errOvf : Bool) (code : BitVec 8) (info : Word) :
    SameData s (s.withErrors err errOvf code info) := ⟨fun _ => rfl, ⟨rfl, fun _ => rfl⟩, rfl⟩

/-- Settles O47: no command reads the error fields, and both of its runs complete. -/
theorem errorsDoNotBlockCommands : Obligations.ErrorsDoNotBlockCommands := by
  unfold Obligations.ErrorsDoNotBlockCommands
  intro i s e o c w
  obtain ⟨t, u, ht, hu, hregs, htable⟩ := (sameData_withErrors s e o c w).exec i
  obtain ⟨t', ht', ⟨htbusy, htdone⟩, -⟩ := exec_completes i s
  obtain ⟨u', hu', ⟨hubusy, hudone⟩, -⟩ := exec_completes i (s.withErrors e o c w)
  cases ht'.symm.trans ht
  cases hu'.symm.trans hu
  exact ⟨t, u, ht, hu, hregs, htable, hubusy.trans htbusy.symm, hudone.trans htdone.symm⟩

/-- Settles O6. -/
theorem idleEngineAndOutsideAccessHoldState : Obligations.IdleEngineAndOutsideAccessHoldState := by
  unfold Obligations.IdleEngineAndOutsideAccessHoldState
  refine fun s => ⟨fun hb => ⟨fun hs => ?_, fun rest hs => ?_⟩, fun t rest hs hout => ?_⟩
  · exact (step_nil hs).trans (engineTurn_idle hb)
  · exact (step_engine hs).trans (engineTurn_idle (s := s.withTurns rest) hb)
  · have hnot : ¬ inWindow s.cfg t.addr := fun ⟨hlow, hhigh⟩ => by omega
    exact (step_host hs).trans (hostTurn_outside (s := s.withTurns rest) hnot)

/-- Settles O7: a command and a refused word complete alike. -/
theorem everyCommandCompletes : Obligations.EveryCommandCompletes := by
  unfold Obligations.EveryCommandCompletes
  refine ⟨exec_completes, fun s hb => ⟨fun hs => ?_, fun rest hs => ?_⟩⟩
  · rw [step_nil_busy hs hb]
    exact engineStep_completes s
  · rw [step_engine_busy hs hb]
    exact engineStep_completes (s.withTurns rest)

/-! ### The interrupt (R262, R263) -/

theorem irq_iff (s : State) : s.irq = true ↔ (s.done = true ∧ s.doneIE = true) ∨ (s.err = true ∧ s.errIE = true) := by
  simp [State.irq]

theorem irqOn_irqLine (s : State) : s.irqOn s.cfg.irqLine = s.irq := by
  simp [State.irqOn]

/-- Settles O48. -/
theorem irqIsALevelOfTheState : Obligations.IrqIsALevelOfTheState := by
  unfold Obligations.IrqIsALevelOfTheState
  exact fun s => ⟨irq_iff s, irqOn_irqLine s⟩

/-- A flag written with 1 no longer drives `irq` (R85). -/
theorem irq_statusWrite (d : Word) (s : State) : (statusWrite d s).irq =
    ((s.done && !d.getLsbD 1 && s.doneIE) || (s.err && !d.getLsbD 2 && s.errIE)) := by
  have hclear (b x : Bool) : (if b then false else x) = (x && !b) := by cases b <;> simp
  rw [State.irq, statusWrite_done, statusWrite_err, hclear, hclear]
  rfl

/-- Accepting a command clears `DONE`, so that only the error source is left (R84). -/
theorem irq_acceptCommand (d : Word) (s : State) : (acceptCommand d s).irq = (s.err && s.errIE) := by
  simp [State.irq]

/-- Settles O49, write by write. -/
theorem interruptSourcesAreMaskedAndCleared : Obligations.InterruptSourcesAreMaskedAndCleared := by
  unfold Obligations.InterruptSourcesAreMaskedAndCleared
  refine fun s d => ⟨fun hd => ?_, ?_, fun hb => ?_, fun _ => rfl⟩
  · rw [busWrite_ctrl, ctrlWrite_of_not_srst s hd]
    exact ⟨rfl, rfl, rfl⟩
  · rw [busWrite_status, irq_statusWrite]
  · rw [busWrite_cmd d hb, irq_acceptCommand]

end Sys2Proof.Machine
end

