-- ==== Sys2Proof/Proofs/SpecWords.lean ====
section
/-! PROOF. The words written out in the spec's vectors and programs are the encoder's words of the commands they stand for, so
the round trip of decoder and encoder (R128) says what they decode to (O4). -/

namespace Sys2Proof.Machine

theorem decode_of_encode_eq {i : Instr} {w : Word} (hwf : i.wf = true) (hw : encode i = w) : decode w = .cmd i :=
  hw ▸ decode_encode hwf

/-- Settles O4: each word is its command's encoding (`95_test_vectors.md` section 3.1 and section 5, Program 2). -/
theorem specWordsDecodeAsWritten : Obligations.SpecWordsDecodeAsWritten := by
  unfold Obligations.SpecWordsDecodeAsWritten
  have hnop : encode .nop = 0x04000000#32 := by decide
  have hpli : encode (.pli 1 0xFFFF) = 0x0880FFFF#32 := by decide
  have hpmul : encode (.pmul 1 2 3) = 0x28A60000#32 := by decide
  have hgfoldr : encode (.gfoldr 1 0 8224) = 0x4C802020#32 := by decide
  have hpshl : encode (.pshl 1 1 127) = 0x1490007F#32 := by decide
  have hderive : encode (.derive 0) = 0x54000000#32 := by decide
  exact ⟨decode_of_encode_eq rfl hnop, decode_of_encode_eq rfl hpli, decode_of_encode_eq rfl hpmul,
    decode_of_encode_eq rfl hgfoldr, decode_of_encode_eq rfl hpshl, decode_of_encode_eq rfl hderive⟩

end Sys2Proof.Machine
end
